-- ==== Sys2Proof/Word.lean ====
section
/-! DEFINITION. The bit-vector types of the CSP block: a byte, the 64-bit operand and the 72-bit command word
(30_encoding.md R40). -/

namespace Sys2Proof

/-- A byte, 8 bits (00_scope.md section 5). -/
abbrev Byte := BitVec 8

/-- The operand field `data = cmd[63:0]` of a command (30_encoding.md R40). -/
abbrev Data := BitVec 64

/-- A command word `cmd[71:0]` (30_encoding.md R40). -/
abbrev Command := BitVec 72

end Sys2Proof
end

