-- ==== Sys2Proof/Syntax.lean ====
section
/-! DEFINITION. The seventeen commands of the block (30_encoding.md R43), each with the operand bits its format uses
(R41, R42), and nothing of the ignored bits. -/

namespace Sys2Proof

/-- The five command formats (30_encoding.md R41). -/
inductive Format where
  /-- no operand -/
  | N
  /-- operand `b = data[7:0]` -/
  | B
  /-- operand `v = data[15:0]` -/
  | H
  /-- operand `v = data[31:0]` -/
  | W
  /-- operand `v = data[63:0]` -/
  | D
  deriving DecidableEq, Repr

/-- One constructor per row of spec/opcode_table.json. -/
inductive Instr where
  /-- START b: begin a frame with message id `b` (40_frame_control.md R55) -/
  | start (b : Byte)
  /-- FINISH: length patch, checksum, result length (R56) -/
  | finish
  /-- ABORT b: record the host failure `b` (R57) -/
  | abort (b : Byte)
  /-- CKCLR: clear the accumulators (41_checksum.md R63) -/
  | ckclr
  /-- CKBYTE b: feed one byte to the running sum (R64) -/
  | ckbyte (b : Byte)
  /-- PUTU8 b (42_serializer.md R76) -/
  | putu8 (b : Byte)
  /-- PUTU16 v (R77) -/
  | putu16 (v : BitVec 16)
  /-- PUTU32 v (R78) -/
  | putu32 (v : BitVec 32)
  /-- PUTU64 v (R79) -/
  | putu64 (v : BitVec 64)
  /-- PUTI8 b (R80) -/
  | puti8 (b : Byte)
  /-- PUTI16 v (R81) -/
  | puti16 (v : BitVec 16)
  /-- PUTI32 v (R82) -/
  | puti32 (v : BitVec 32)
  /-- PUTF32 v (R83) -/
  | putf32 (v : BitVec 32)
  /-- PUTF64 v (R84) -/
  | putf64 (v : BitVec 64)
  /-- SBEGIN: open a 32-byte string field (43_string_packer.md R91) -/
  | sbegin
  /-- SCHAR b: the next character of the field (R92) -/
  | schar (b : Byte)
  /-- SEND: pad and close the field (R93) -/
  | send
  deriving DecidableEq, Repr

end Sys2Proof
end

