-- ==== Sys2Proof/Decode.lean ====
section
/-! DEFINITION. The decoder of 72-bit command words (30_encoding.md R40 to R47) and, after it, the encoder. -/

namespace Sys2Proof

/-- Why a word is not a command. Raised by the decoder alone; `step` turns it into the IllegalCommand error
(60_exceptions.md R123), so it never stops the machine. -/
inductive DecodeError where
  /-- the opcode is one of the 239 unassigned values (30_encoding.md R45) -/
  | illegalOpcode (op : Byte)
  deriving DecidableEq, Repr

/-- `op = cmd[71:64]` (30_encoding.md R40). -/
def commandOp (w : Command) : Byte := w.extractLsb' 64 8

/-- `data = cmd[63:0]` (R40). -/
def commandData (w : Command) : Data := w.extractLsb' 0 64

/-- The operand of a format that uses the low `k` bits of `data` (R41, R42: the other bits are ignored). -/
def operandBits (k : Nat) (w : Command) : BitVec k := (commandData w).extractLsb' 0 k

/-- Decoding by the opcode map R43; total (R47), every opcode outside the map rejected (R45). -/
def decode (w : Command) : Except DecodeError Instr :=
  match (commandOp w).toNat with
  | 0x01 => .ok (.start (operandBits 8 w))
  | 0x02 => .ok .finish
  | 0x03 => .ok (.abort (operandBits 8 w))
  | 0x08 => .ok .ckclr
  | 0x09 => .ok (.ckbyte (operandBits 8 w))
  | 0x10 => .ok (.putu8 (operandBits 8 w))
  | 0x11 => .ok (.putu16 (operandBits 16 w))
  | 0x12 => .ok (.putu32 (operandBits 32 w))
  | 0x13 => .ok (.putu64 (operandBits 64 w))
  | 0x14 => .ok (.puti8 (operandBits 8 w))
  | 0x15 => .ok (.puti16 (operandBits 16 w))
  | 0x16 => .ok (.puti32 (operandBits 32 w))
  | 0x1A => .ok (.putf32 (operandBits 32 w))
  | 0x1B => .ok (.putf64 (operandBits 64 w))
  | 0x20 => .ok .sbegin
  | 0x21 => .ok (.schar (operandBits 8 w))
  | 0x22 => .ok .send
  | _ => .error (.illegalOpcode (commandOp w))

/-- The command word the host's numbering of spec/opcode_table.json names: one 72-bit word, bit 0 least significant,
the bits from `nbits` up zero (log entry 8). -/
def tableCommand (nbits w : Nat) : Command := BitVec.ofNat 72 (w % 2 ^ nbits)

/-- The instruction the decoder reads from that word. -/
def decodeTableWord (nbits w : Nat) : Option Instr := (decode (tableCommand nbits w)).toOption

/-! ### The encoder -/

/-- The opcode of the map R43. -/
def Instr.opcode : Instr → Byte
  | .start _ => 0x01
  | .finish => 0x02
  | .abort _ => 0x03
  | .ckclr => 0x08
  | .ckbyte _ => 0x09
  | .putu8 _ => 0x10
  | .putu16 _ => 0x11
  | .putu32 _ => 0x12
  | .putu64 _ => 0x13
  | .puti8 _ => 0x14
  | .puti16 _ => 0x15
  | .puti32 _ => 0x16
  | .putf32 _ => 0x1A
  | .putf64 _ => 0x1B
  | .sbegin => 0x20
  | .schar _ => 0x21
  | .send => 0x22

/-- The format of the map R43. -/
def Instr.format : Instr → Format
  | .finish | .ckclr | .sbegin | .send => .N
  | .start _ | .abort _ | .ckbyte _ | .putu8 _ | .puti8 _ | .schar _ => .B
  | .putu16 _ | .puti16 _ => .H
  | .putu32 _ | .puti32 _ | .putf32 _ => .W
  | .putu64 _ | .putf64 _ => .D

/-- How many low bits of `data` a format uses (R41). -/
def Format.bits : Format → Nat
  | .N => 0
  | .B => 8
  | .H => 16
  | .W => 32
  | .D => 64

/-- The operand placed in the low bits of `data`, the unused bits zero (the presentation of R49 for a non-negative
literal). -/
def Instr.data : Instr → Data
  | .finish | .ckclr | .sbegin | .send => 0
  | .start b | .abort b | .ckbyte b | .putu8 b | .puti8 b | .schar b => b.setWidth 64
  | .putu16 v | .puti16 v => v.setWidth 64
  | .putu32 v | .puti32 v | .putf32 v => v.setWidth 64
  | .putu64 v | .putf64 v => v

/-- The command word `(op, data)` of R40. -/
def encode (i : Instr) : Command := i.opcode ++ i.data

end Sys2Proof
end

