-- ==== Sys2Proof/Config.lean ====
section
/-! DEFINITION. The one implementation parameter of the block, `BUF_SIZE` (00_scope.md R7). The constants R8 and R9
stand in Machine/Operands.lean, the host layer's parameters R10 and R11 in Machine/TextCommand.lean. -/

namespace Sys2Proof

/-- The parameters of one block instance. `capacity` is the largest payload the buffer can hold, `BUF_SIZE - 8`
(20_memory.md R36). R7 allows `8 <= BUF_SIZE <= 65543 = 8 + 65535`, so `capacity` is exactly a number below 65536,
and a size outside R7's range cannot be written (log entry 1). -/
structure Config where
  capacity : Fin 65536
  deriving DecidableEq, Repr

/-- `BUF_SIZE`, the number of bytes of the frame buffer (00_scope.md R7). -/
def Config.bufSize (c : Config) : Nat := 8 + c.capacity.val

/-- The default of R7, `BUF_SIZE = 128`. -/
def Config.default : Config := { capacity := 120 }

end Sys2Proof
end

