-- ==== Sys2Proof/Machine/State.lean ====
section
/-! DEFINITION. The state of the block (10_state.md), the reasons a step can stop, and reset (R29, R140). -/

namespace Sys2Proof.Machine

/-- The sequencer's phases (10_state.md R20). The encodings 5, 6, 7 never occur, so the type does not contain them
(93_implementation_defined.md U9). -/
inductive Phase where
  /-- after reset, no frame started (0) -/
  | IDLE
  /-- a frame is started and fields may be appended (1) -/
  | OPEN
  /-- a string field is in progress (2) -/
  | STR
  /-- a frame is complete in `buf[0:flen]` (3) -/
  | DONE
  /-- the current call failed (4) -/
  | ERR
  deriving DecidableEq, Repr

/-- The values of the `err` register (60_exceptions.md R122); its other encodings never occur (U9). -/
inductive ErrCode where
  /-- 0: the phase is not ERR -/
  | noError
  /-- 1, by ABORT (R126) -/
  | invalidInput
  /-- 2, by ABORT (R126) -/
  | unknownCommand
  /-- 3, by ABORT (R126) -/
  | unknownConfigKey
  /-- 4, by ABORT (R126) -/
  | invalidArgumentCount
  /-- 8, detected by the block (R123) -/
  | illegalCommand
  /-- 9, detected by the block (R124) -/
  | sequenceError
  /-- 10, detected by the block (R125) -/
  | bufferOverflow
  deriving DecidableEq, Repr

/-- The frame buffer: the bytes written since reset, by offset, strictly rising. A byte not listed has never been
written and holds no value (10_state.md R29). -/
abbrev Memory := List Host.Cell

/-- The canonical form of a memory: offsets strictly rising. -/
abbrev Memory.wf (m : Memory) : Prop := m.Pairwise fun c d => c.1 < d.1

/-- Why the machine stops. The spec's own faults (60_exceptions.md) are transitions to a next state and are not here;
neither reason arises in a state that meets the invariant R28. -/
inductive Fault where
  /-- A write at or beyond `BUF_SIZE`, an address that does not exist (20_memory.md R30). Raised by SCHAR, SEND and
  FINISH, only in states R28 rules out. Safe: the model stops where the spec says nothing. -/
  | outsideBuffer
  /-- A read by FINISH of a byte never written since reset, which holds no value (10_state.md R29). Raised by FINISH,
  only in states R28 rules out. Safe: the model stops where the spec gives no value. -/
  | neverWritten
  deriving DecidableEq, Repr

/-- What the model gives no meaning. -/
inductive Refusal where
  /-- An instruction without a meaning; raised by `exec` alone. Safe. No instruction of this model raises it. -/
  | notModelled (mnemonic : String)
  /-- `BufRead` of an offset at or beyond `BUF_SIZE` (20_memory.md R38, U10). Raised by `bufRead` alone. Safe: the
  spec refuses the read. -/
  | readBeyondBuffer
  /-- `BufRead` of a byte never written since reset (R38, U11). Raised by `bufRead` alone. Safe: the spec refuses the
  read. -/
  | readNeverWritten
  deriving DecidableEq, Repr

/-- All the state the spec gives the block, the parameter `BUF_SIZE`, and the commands the host has presented. -/
structure State where
  /-- the parameter `BUF_SIZE` (00_scope.md R7); no step writes it (log entry 1) -/
  cfg : Config
  /-- the sequencer state, 3 bits (10_state.md R20) -/
  phase : Phase
  /-- the error code register, 4 bits (R21) -/
  err : ErrCode
  /-- the result length (R19) -/
  flen : BitVec 17
  /-- the write pointer (R17) -/
  wp : BitVec 17
  /-- the string counter (R18) -/
  scnt : BitVec 6
  /-- checksum accumulator A (R16) -/
  cka : Byte
  /-- checksum accumulator B (R16) -/
  ckb : Byte
  /-- the frame buffer (R22) -/
  buf : Memory
  /-- the commands the host has presented to the machine and the block has not taken, the next one first (R27 (a),
  20_memory.md R37; log entry 2); a read of the host shows the state before them (log entry 13) -/
  pending : List Command
  deriving DecidableEq, Repr

/-- The state after reset of an instance with parameter `c` (10_state.md R29). -/
def State.resetWith (c : Config) : State :=
  { cfg := c, phase := .IDLE, err := .noError, flen := 0, wp := 0, scnt := 0, cka := 0, ckb := 0, buf := [],
    pending := [] }

/-- The state after reset with the default `BUF_SIZE = 128` (R7, R29). -/
def State.reset : State := State.resetWith Config.default

end Sys2Proof.Machine
end

