-- ==== Sys2Proof/Machine/Operands.lean ====
section
/-! DEFINITION. The block's constants (00_scope.md R8, R9) and the little-endian byte forms of operands (R13,
20_memory.md R31). -/

namespace Sys2Proof.Machine

/-- `SYNC0` (00_scope.md R8). -/
def SYNC0 : Byte := 0xB5

/-- `SYNC1` (R8). -/
def SYNC1 : Byte := 0x62

/-- `CLASS`, the configuration class (R8). -/
def CLASS : Byte := 0x06

/-- `STR_LEN`, the bytes of a FixedString32 field (R8). -/
abbrev STR_LEN : Nat := 32

/-- `PAD`, the byte the string packer pads with (R9: "the ASCII space [from general knowledge, not in source]").
PRESUMED (log entry 3). -/
def PAD : Byte := 0x20

/-- The `n` bytes of a word, least significant first (00_scope.md R13: byte `i` is `v[8i+7:8i]`). -/
def leBytes (n : Nat) {k : Nat} (v : BitVec k) : List Byte := (List.range n).map fun i => v.extractLsb' (8 * i) 8

/-- The number a list of bytes spells, least significant first (R13). -/
def leValue : List Byte → Nat
  | [] => 0
  | b :: bs => b.toNat + 256 * leValue bs

/-- The header START writes at offset 0: sync bytes, class, message id and the length placeholder 0
(40_frame_control.md R55). -/
def header (b : Byte) : List Byte := [SYNC0, SYNC1, CLASS, b, 0x00, 0x00]

/-- The error of an ABORT reason, where the reason is one of the four (40_frame_control.md R57). -/
def hostReason (b : Byte) : Option ErrCode :=
  match b.toNat with
  | 1 => some .invalidInput
  | 2 => some .unknownCommand
  | 3 => some .unknownConfigKey
  | 4 => some .invalidArgumentCount
  | _ => none

end Sys2Proof.Machine
end

