-- ==== Sys2Proof/Machine/Ops.lean ====
section
/-! DEFINITION. The shared operations: the buffer (20_memory.md), the error transition (60_exceptions.md R121), the
dispatch tests (40_frame_control.md R53), appending bytes at `wp` (42_serializer.md R89) and taking the next presented
command. -/

namespace Sys2Proof.Machine

/-- One step's outcome. -/
abbrev Result := Host.Outcome State Fault Refusal

/-- Go on from a next state; a stop stays a stop. -/
def andThen (r : Result) (k : State → Result) : Result :=
  match r with
  | .next s => k s
  | .fault f => .fault f
  | .refused e => .refused e

/-! ### The frame buffer -/

/-- The byte at an offset, or none where nothing has been written since reset (10_state.md R29). -/
def Memory.read : Memory → Nat → Option Byte
  | [], _ => none
  | (k, v) :: m, a => if k = a then some v else Memory.read m a

/-- Write one byte, keeping the offsets strictly rising. -/
def Memory.write : Memory → Nat → Byte → Memory
  | [], a, b => [(a, b)]
  | (k, v) :: m, a, b =>
    if a < k then (a, b) :: (k, v) :: m else if a = k then (a, b) :: m else (k, v) :: Memory.write m a b

/-- Write bytes at `a, a + 1, ...`, in increasing order (00_scope.md R13). -/
def Memory.writeBytes : Memory → Nat → List Byte → Memory
  | m, _, [] => m
  | m, a, b :: bs => Memory.writeBytes (Memory.write m a b) (a + 1) bs

/-- The `n` bytes from offset `a`, where each has been written. -/
def Memory.readBytes (m : Memory) : Nat → Nat → Option (List Byte)
  | _, 0 => some []
  | a, n + 1 =>
    match Memory.read m a, Memory.readBytes m (a + 1) n with
    | some b, some bs => some (b :: bs)
    | _, _ => none

/-- `MemRead(addr, n)`: the `8n`-bit little-endian word at `addr` (R13). -/
def Memory.memRead (m : Memory) (a n : Nat) : Option (BitVec (8 * n)) :=
  (Memory.readBytes m a n).map fun bs => BitVec.ofNat (8 * n) (leValue bs)

/-- `MemWrite(addr, n, v)`: the low `n` bytes of `v`, least significant first (R13). -/
def Memory.memWrite (m : Memory) (a n : Nat) {k : Nat} (v : BitVec k) : Memory :=
  Memory.writeBytes m a (leBytes n v)

/-! ### Errors -/

/-- The error transition, the only thing a fault or a valid ABORT does (60_exceptions.md R121): `err` takes the code,
`flen` becomes 0, the phase becomes ERR, and nothing is saved. Nothing returns from it: START leaves ERR and restores
nothing (R130). -/
def enterError (e : ErrCode) (s : State) : State := { s with err := e, flen := 0, phase := .ERR }

/-- Dispatch steps 4 and 5 for an unassigned opcode or a reserved ABORT reason (40_frame_control.md R53): ignored in
ERR, otherwise IllegalCommand. -/
def illegalCommand (s : State) : Result :=
  if s.phase = .ERR then .next s else .next (enterError .illegalCommand s)

/-- Dispatch steps 4 and 6 for a command legal in phase `p` only (R53, R54): ignored in ERR, SequenceError in another
phase. -/
def inPhase (p : Phase) (body : State → Result) (s : State) : Result :=
  if s.phase = .ERR then .next s else if s.phase = p then body s else .next (enterError .sequenceError s)

/-- Dispatch step 7 (R53): BufferOverflow unless `w` more bytes leave room for the two checksum bytes
(20_memory.md R36). -/
def reserving (w : Nat) (body : State → Result) (s : State) : Result :=
  if s.wp.toNat + w + 2 ≤ s.cfg.bufSize then body s else .next (enterError .bufferOverflow s)

/-! ### Appending -/

/-- Write bytes at `wp` and advance it past them, all or nothing (42_serializer.md R89, 20_memory.md R33). An offset
at or beyond `BUF_SIZE` does not exist (R30); no command reaches one in a state that meets R28. -/
def append (bs : List Byte) (s : State) : Result :=
  if s.wp.toNat + bs.length ≤ s.cfg.bufSize then
    .next { s with buf := Memory.writeBytes s.buf s.wp.toNat bs, wp := s.wp + BitVec.ofNat 17 bs.length }
  else .fault .outsideBuffer

/-! ### The command stream -/

/-- Take the next presented command (20_memory.md R37): the word and the state without it, or none while the block
waits for the host (70_reset_and_hazards.md R141). -/
def takeCommand (s : State) : Option (Command × State) :=
  match s.pending with
  | [] => none
  | w :: ws => some (w, { s with pending := ws })

/-- The host presents one more command, after those already presented (R37). -/
def present (w : Command) (s : State) : State := { s with pending := s.pending ++ [w] }

end Sys2Proof.Machine
end

