-- ==== Sys2Proof/Machine/Checksum.lean ====
section
/-! DEFINITION. The running-sum checksum unit (41_checksum.md): `ckstep`, `ck`, CKCLR, CKBYTE. -/

namespace Sys2Proof.Machine

/-- One byte fed to the pair of accumulators; the second sum adds the first one already updated (41_checksum.md R63);
8-bit additions drop the carry (R66). -/
def ckstep (p : Byte × Byte) (x : Byte) : Byte × Byte := (p.1 + x, p.2 + (p.1 + x))

/-- The checksum of a byte sequence, from `(0, 0)` (R62). -/
def ck (bs : List Byte) : Byte × Byte := bs.foldl ckstep (0, 0)

/-- CKCLR (R63): legal in every phase. -/
def execCkclr (s : State) : Result := .next { s with cka := 0, ckb := 0 }

/-- CKBYTE (R64): legal in every phase. -/
def execCkbyte (b : Byte) (s : State) : Result :=
  .next { s with cka := (ckstep (s.cka, s.ckb) b).1, ckb := (ckstep (s.cka, s.ckb) b).2 }

end Sys2Proof.Machine
end

