-- ==== Sys2Proof/Machine/Frame.lean ====
section
/-! DEFINITION. The frame sequencer (40_frame_control.md): START, FINISH, ABORT. -/

namespace Sys2Proof.Machine

/-- START (40_frame_control.md R55): legal in every phase; `BUF_SIZE >= 8` leaves room for the header. -/
def execStart (b : Byte) (s : State) : Result :=
  .next { s with buf := Memory.writeBytes s.buf 0 (header b), wp := 6, scnt := 0, err := .noError, flen := 0,
                 phase := .OPEN }

/-- The buffer after FINISH's length patch: the payload length `N = wp - 6` at offsets 4 and 5 (R56). -/
def patchLength (s : State) : Memory := Memory.memWrite s.buf 4 2 (BitVec.ofNat 16 (s.wp.toNat - 6))

/-- The checksum step of FINISH (R56): the sum over the bytes 2 to `wp - 1`, the true length among them; none where
one of them was never written, which R28 rules out. -/
def frameChecksum (s : State) : Option (Byte × Byte) :=
  (Memory.readBytes (patchLength s) 2 (s.wp.toNat - 2)).map ck

/-- FINISH (R56): length patch, checksum, append, publish the frame length. -/
def execFinish (s : State) : Result :=
  inPhase .OPEN (fun s =>
    match frameChecksum s with
    | none => .fault .neverWritten
    | some (a, b) =>
      andThen (append [a, b] { s with buf := patchLength s, cka := a, ckb := b }) fun t =>
        .next { t with flen := t.wp, phase := .DONE }) s

/-- ABORT (R57): legal in every phase for the reasons 1 to 4, else an illegal command (30_encoding.md R45). -/
def execAbort (b : Byte) (s : State) : Result :=
  match hostReason b with
  | some e => .next (enterError e s)
  | none => illegalCommand s

end Sys2Proof.Machine
end

