-- ==== Sys2Proof/Machine/Serializer.lean ====
section
/-! DEFINITION. The little-endian multi-width serializer (42_serializer.md): the nine PUT commands over one `put`. -/

namespace Sys2Proof.Machine

/-- `PUT(w, data)` with the dispatch around it (42_serializer.md R73): ignored in ERR, SequenceError outside OPEN,
BufferOverflow when `w` bytes do not fit, else the `w` low bytes appended least significant first. -/
def put (w : Nat) {k : Nat} (v : BitVec k) (s : State) : Result :=
  inPhase .OPEN (reserving w (append (leBytes w v))) s

/-- PUTU8 (R76). -/
def execPutu8 (b : Byte) (s : State) : Result := put 1 b s

/-- PUTU16 (R77). -/
def execPutu16 (v : BitVec 16) (s : State) : Result := put 2 v s

/-- PUTU32 (R78). -/
def execPutu32 (v : BitVec 32) (s : State) : Result := put 4 v s

/-- PUTU64 (R79). -/
def execPutu64 (v : BitVec 64) (s : State) : Result := put 8 v s

/-- PUTI8 (R80): the two's-complement pattern, written as it stands. -/
def execPuti8 (b : Byte) (s : State) : Result := put 1 b s

/-- PUTI16 (R81). -/
def execPuti16 (v : BitVec 16) (s : State) : Result := put 2 v s

/-- PUTI32 (R82). -/
def execPuti32 (v : BitVec 32) (s : State) : Result := put 4 v s

/-- PUTF32 (R83): the raw bit pattern, no floating-point operation. -/
def execPutf32 (v : BitVec 32) (s : State) : Result := put 4 v s

/-- PUTF64 (R84). -/
def execPutf64 (v : BitVec 64) (s : State) : Result := put 8 v s

end Sys2Proof.Machine
end

