-- ==== Sys2Proof/Machine/StringPacker.lean ====
section
/-! DEFINITION. The fixed-length string packer (43_string_packer.md): `pack32`, SBEGIN, SCHAR, SEND. -/

namespace Sys2Proof.Machine

/-- `pack32(s)`: left-justified, padded or truncated to exactly 32 bytes (43_string_packer.md R90). -/
def pack32 (cs : List Byte) : List Byte := cs.take STR_LEN ++ List.replicate (STR_LEN - cs.length) PAD

/-- SBEGIN (R91): reserves the whole field. -/
def execSbegin (s : State) : Result :=
  inPhase .OPEN (reserving STR_LEN fun s => .next { s with scnt := 0, phase := .STR }) s

/-- SCHAR (R92): the character is stored and counted below 32, and dropped from the 33rd on. -/
def execSchar (b : Byte) (s : State) : Result :=
  inPhase .STR (fun s =>
    if s.scnt.toNat < STR_LEN then andThen (append [b] s) fun t => .next { t with scnt := t.scnt + 1 }
    else .next s) s

/-- SEND (R93): pads up to 32 bytes and closes the field. -/
def execSend (s : State) : Result :=
  inPhase .STR (fun s =>
    andThen (append (List.replicate (STR_LEN - s.scnt.toNat) PAD) s) fun t =>
      .next { t with scnt := 0, phase := .OPEN }) s

end Sys2Proof.Machine
end

