-- ==== Sys2Proof/Machine/Dispatch.lean ====
section
/-! DEFINITION. One arm per command of the opcode map (30_encoding.md R43). -/

namespace Sys2Proof.Machine

def exec (i : Instr) (s : State) : Host.Outcome State Fault Refusal :=
  match i with
  | .start b => Sys2Proof.Machine.execStart b s
  | .finish => Sys2Proof.Machine.execFinish s
  | .abort b => Sys2Proof.Machine.execAbort b s
  | .ckclr => Sys2Proof.Machine.execCkclr s
  | .ckbyte b => Sys2Proof.Machine.execCkbyte b s
  | .putu8 b => Sys2Proof.Machine.execPutu8 b s
  | .putu16 v => Sys2Proof.Machine.execPutu16 v s
  | .putu32 v => Sys2Proof.Machine.execPutu32 v s
  | .putu64 v => Sys2Proof.Machine.execPutu64 v s
  | .puti8 b => Sys2Proof.Machine.execPuti8 b s
  | .puti16 v => Sys2Proof.Machine.execPuti16 v s
  | .puti32 v => Sys2Proof.Machine.execPuti32 v s
  | .putf32 v => Sys2Proof.Machine.execPutf32 v s
  | .putf64 v => Sys2Proof.Machine.execPutf64 v s
  | .sbegin => Sys2Proof.Machine.execSbegin s
  | .schar b => Sys2Proof.Machine.execSchar b s
  | .send => Sys2Proof.Machine.execSend s

end Sys2Proof.Machine
end

