-- ==== Sys2Proof/Machine/Step.lean ====
section
/-! DEFINITION. `Step(cmd)` of 30_encoding.md R48 (`perform`), and the machine's step: the next presented command is
performed. -/

namespace Sys2Proof.Machine

/-- `Step(cmd)`: decode the word, then dispatch (40_frame_control.md R53). -/
def perform (w : Command) (s : State) : Host.Outcome State Fault Refusal :=
  match decode w with
  | .ok i => exec i s
  | .error _ => illegalCommand s

/-- Perform the next presented command; while none is presented the block waits and nothing changes
(70_reset_and_hazards.md R141; log entry 2). -/
def step (s : State) : Host.Outcome State Fault Refusal :=
  match takeCommand s with
  | none => .next s
  | some (w, t) => perform w t

/-- The state in which the host presents the given word next, before all it has presented so far (log entry 8). -/
def State.withFetchWord (s : State) (nbits w : Nat) : State := { s with pending := tableCommand nbits w :: s.pending }

end Sys2Proof.Machine
end

