-- ==== Sys2Proof/Machine/Flags.lean ====
section
/-! DEFINITION. The status the host can test: the block has no arithmetic flags (10_state.md R23), only the encodings
of `phase` and `err` and the eight read-only status registers (R24, R25). -/

namespace Sys2Proof.Machine

/-- The 3-bit encoding of `phase` (10_state.md R20). -/
def phaseCode : Phase → BitVec 3
  | .IDLE => 0
  | .OPEN => 1
  | .STR => 2
  | .DONE => 3
  | .ERR => 4

/-- The 4-bit encoding of `err` (60_exceptions.md R122). -/
def errCode : ErrCode → BitVec 4
  | .noError => 0
  | .invalidInput => 1
  | .unknownCommand => 2
  | .unknownConfigKey => 3
  | .invalidArgumentCount => 4
  | .illegalCommand => 8
  | .sequenceError => 9
  | .bufferOverflow => 10

/-- Status register 0: PHASE in bits [2:0], ERR in bits [7:4], every other bit 0 (R24). -/
def statusWord (s : State) : BitVec 32 := (0 : BitVec 24) ++ errCode s.err ++ (0 : BitVec 1) ++ phaseCode s.phase

/-- `StatusRead(sr_sel)` (R25): legal in every phase, without side effect. -/
def statusRead (sel : BitVec 3) (s : State) : BitVec 32 :=
  match sel.toNat with
  | 0 => statusWord s
  | 1 => s.cka.setWidth 32
  | 2 => s.ckb.setWidth 32
  | 3 => s.wp.setWidth 32
  | 4 => s.flen.setWidth 32
  | 5 => s.scnt.setWidth 32
  | 6 => BitVec.ofNat 32 s.cfg.bufSize
  | _ => 0

end Sys2Proof.Machine
end

