-- ==== Sys2Proof/Machine/Ports.lean ====
section
/-! DEFINITION. What the host can do to the block (30_encoding.md R48): the four operations, sequences of commands, and
the signal-level rendering. -/

namespace Sys2Proof.Machine

/-- `BufRead(addr)` (20_memory.md R38): the byte, refused at or beyond `BUF_SIZE` (U10) and where nothing has been
written since reset (U11). -/
def bufRead (a : Nat) (s : State) : Host.Outcome Byte Fault Refusal :=
  if a < s.cfg.bufSize then
    match Memory.read s.buf a with
    | some b => .next b
    | none => .refused .readNeverWritten
  else .refused .readBeyondBuffer

/-- `Reset()` (70_reset_and_hazards.md R140): the state of 10_state.md R29 for the same `BUF_SIZE`. The commands the
host has yet to deliver are the host's, and stay (log entry 6). -/
def resetBlock (s : State) : State := { State.resetWith s.cfg with pending := s.pending }

/-- The four operations of the interface (30_encoding.md R48). -/
inductive PortOp where
  /-- `Step(cmd)` -/
  | command (w : Command)
  /-- `StatusRead(sr_sel)` -/
  | statusRead (sel : BitVec 3)
  /-- `BufRead(addr)` -/
  | bufRead (a : Nat)
  /-- `Reset()` -/
  | reset
  deriving DecidableEq, Repr

/-- What the host gets back from an operation. -/
inductive Reply where
  /-- nothing: a command or a reset -/
  | nothing
  /-- the 32-bit value of a status register -/
  | status (v : BitVec 32)
  /-- a byte of the buffer -/
  | byte (b : Byte)
  deriving DecidableEq, Repr

/-- One operation of the host, between steps (20_memory.md R37): reads have no side effect. A command given here is
performed at once; those still in `pending` stay and come after it, and a read shows the state before them
(log entry 13). -/
def serve (op : PortOp) (s : State) : Host.Outcome (Reply × State) Fault Refusal :=
  match op with
  | .command w =>
    match perform w s with
    | .next t => .next (.nothing, t)
    | .fault f => .fault f
    | .refused e => .refused e
  | .statusRead sel => .next (.status (statusRead sel s), s)
  | .bufRead a =>
    match bufRead a s with
    | .next b => .next (.byte b, s)
    | .fault f => .fault f
    | .refused e => .refused e
  | .reset => .next (.nothing, resetBlock s)

/-- `Step` of each word in order (20_memory.md R37). -/
def performAll : List Command → State → Result
  | [], s => .next s
  | w :: ws, s => andThen (perform w s) (performAll ws)

/-- The commands of a sequence, executed in order (R37). -/
def issue : List Instr → State → Result
  | [], s => .next s
  | i :: is, s => andThen (exec i s) (issue is)

/-- The produced frame, as the host reads it: `BufRead(0) .. BufRead(flen - 1)` (R38). -/
def frameBytes (s : State) : Option (List Byte) := Memory.readBytes s.buf 0 s.flen.toNat

/-- The input signals of the rendering in 30_encoding.md R48. -/
structure PinsIn where
  rst : Bool
  cmdValid : Bool
  cmd : Command
  srSel : BitVec 3
  rbAddr : BitVec 17
  deriving DecidableEq, Repr

/-- The output signals of R48; a refused buffer read has no value. -/
structure PinsOut where
  cmdReady : Bool
  srData : BitVec 32
  rbData : Option Byte
  deriving DecidableEq, Repr

/-- The value of the buffer port, none where the read is refused (20_memory.md R38). -/
def bufPort (a : Nat) (s : State) : Option Byte := if a < s.cfg.bufSize then Memory.read s.buf a else none

/-- The output signals of a state: `cmd_ready` is always 1 (R48). -/
def outputs (p : PinsIn) (s : State) : PinsOut :=
  { cmdReady := true, srData := statusRead p.srSel s, rbData := bufPort p.rbAddr.toNat s }

/-- One cycle of R48: reset wins over a command of the same cycle (70_reset_and_hazards.md R140), a command is taken
when `cmd_valid` is 1, and the reads are served after it (log entry 7). The command of the cycle is performed before those
still in `pending`, which stay, and its reads show the state before these (log entry 13). -/
def clockCycle (p : PinsIn) (s : State) : Host.Outcome (PinsOut × State) Fault Refusal :=
  match (if p.rst then .next (resetBlock s) else if p.cmdValid then perform p.cmd s else .next s : Result) with
  | .next t => .next (outputs p t, t)
  | .fault f => .fault f
  | .refused e => .refused e

end Sys2Proof.Machine
end

