-- ==== Sys2Proof/Machine/TextCommand.lean ====
section
/-! DEFINITION. The host layer (44_host_command_compiler.md): from a text command to a sequence of block commands, with
the tables and literal readers the source leaves open as an argument (00_scope.md R10, R11). -/

namespace Sys2Proof.Text

open Sys2Proof.Machine

/-- A text command or a token: a string of bytes (43_string_packer.md R96; log entry 9). -/
abbrev Bytes := List Byte

/-- The nine numeric field types of the FieldType variant (00_scope.md section 7). -/
inductive NumType where
  | uint8 | uint16 | uint32 | uint64 | int8 | int16 | int32 | float32 | float64
  deriving DecidableEq, Repr

/-- The FieldType variant, closed at ten. -/
inductive FieldType where
  | num (t : NumType)
  | fixedString32
  deriving DecidableEq, Repr

/-- The width of a numeric field in bytes (42_serializer.md R72). -/
def NumType.width : NumType → Nat
  | .uint8 | .int8 => 1
  | .uint16 | .int16 => 2
  | .uint32 | .int32 | .float32 => 4
  | .uint64 | .float64 => 8

/-- The width of a field in bytes (R72, 43_string_packer.md R90). -/
def FieldType.width : FieldType → Nat
  | .num t => t.width
  | .fixedString32 => STR_LEN

/-- A schema table entry (00_scope.md R10). -/
structure Schema where
  messageId : Byte
  fields : List FieldType
  deriving DecidableEq, Repr

/-- A configuration-item entry (R10). -/
structure ConfigItem where
  key : BitVec 32
  valueType : FieldType
  deriving DecidableEq, Repr

/-- The parameters of the host layer (R10, R11): the whitespace predicate, the literal readers, which answer none for
an unparsable token, and the two tables. No field of State holds one of these. -/
structure Env where
  isSpace : Byte → Bool
  readInt : Bytes → Option Data
  readF32 : Bytes → Option (BitVec 32)
  readF64 : Bytes → Option (BitVec 64)
  schemas : List (Bytes × Schema)
  items : List (Bytes × ConfigItem)

/-- `TOKEN_CAP` (R10). -/
abbrev TOKEN_CAP : Nat := 32

/-- The four error kinds of the host (R111). -/
inductive HostError where
  | invalidInput | unknownCommand | unknownConfigKey | invalidArgumentCount
  deriving DecidableEq, Repr

/-- The reason a kind passes to ABORT (R111). -/
def HostError.reason : HostError → Byte
  | .invalidInput => 1
  | .unknownCommand => 2
  | .unknownConfigKey => 3
  | .invalidArgumentCount => 4

/-! ### Tokenizer (R102) -/

/-- The maximal runs of non-whitespace; `cur` is the run being read. -/
def splitTokens (isSpace : Byte → Bool) : Bytes → Bytes → List Bytes
  | cur, [] => if cur = [] then [] else [cur]
  | cur, c :: cs =>
    if isSpace c then (if cur = [] then splitTokens isSpace [] cs else cur :: splitTokens isSpace [] cs)
    else splitTokens isSpace (cur ++ [c]) cs

/-- `Tokenize(text)`: tokens in order, those after the 32nd dropped (R102). -/
def tokenize (env : Env) (text : Bytes) : List Bytes := (splitTokens env.isSpace [] text).take TOKEN_CAP

/-! ### Literals (R108, R109) -/

/-- `parseInt`: an unparsable token yields 0 (R108 (c)). -/
def parseInt (env : Env) (tok : Bytes) : Data := (env.readInt tok).getD 0

/-- `parseF32`: an unparsable token yields 0 (R109). -/
def parseF32 (env : Env) (tok : Bytes) : BitVec 32 := (env.readF32 tok).getD 0

/-- `parseF64` (R109). -/
def parseF64 (env : Env) (tok : Bytes) : BitVec 64 := (env.readF64 tok).getD 0

/-! ### Field packer (R104, R105) -/

/-- The PUT command of a numeric type with the operand in the low bits of `d` (R105, 30_encoding.md R42). -/
def emitNum (t : NumType) (d : Data) : Instr :=
  match t with
  | .uint8 => .putu8 (d.setWidth 8)
  | .uint16 => .putu16 (d.setWidth 16)
  | .uint32 => .putu32 (d.setWidth 32)
  | .uint64 => .putu64 d
  | .int8 => .puti8 (d.setWidth 8)
  | .int16 => .puti16 (d.setWidth 16)
  | .int32 => .puti32 (d.setWidth 32)
  | .float32 => .putf32 (d.setWidth 32)
  | .float64 => .putf64 d

/-- The command group that packs a string (30_encoding.md R50 PUTS32). -/
def emitString (cs : Bytes) : List Instr := .sbegin :: (cs.map .schar ++ [.send])

/-- The operand word of a numeric field (R105). -/
def operandOf (env : Env) (t : NumType) (tok : Bytes) : Data :=
  match t with
  | .uint8 | .uint16 | .uint32 | .uint64 | .int8 | .int16 | .int32 => parseInt env tok
  | .float32 => (parseF32 env tok).setWidth 64
  | .float64 => parseF64 env tok

/-- `EmitField(T, tok)` (R105). -/
def emitField (env : Env) (T : FieldType) (tok : Bytes) : List Instr :=
  match T with
  | .num t => [emitNum t (operandOf env t tok)]
  | .fixedString32 => emitString tok

/-- `EmitDefault(T)` (R105). -/
def emitDefault (T : FieldType) : List Instr :=
  match T with
  | .num t => [emitNum t 0]
  | .fixedString32 => emitString []

/-- Each field slot takes the next token, or its default; tokens beyond the last slot have no effect (R104). -/
def emitFields (env : Env) : List FieldType → List Bytes → List Instr
  | [], _ => []
  | T :: Ts, [] => emitDefault T ++ emitFields env Ts []
  | T :: Ts, tok :: toks => emitField env T tok ++ emitFields env Ts toks

/-! ### Resolver (R103) and VALSET (R106) -/

/-- What follows the literal "CFG-" (43 46 47 2D), where the token begins with it (R103). -/
def afterCfg (tok : Bytes) : Option Bytes :=
  match tok with
  | 0x43 :: 0x46 :: 0x47 :: 0x2D :: name => some name
  | _ => none

/-- The name "VALSET" (R106). -/
def VALSET : Bytes := [0x56, 0x41, 0x4C, 0x53, 0x45, 0x54]

/-- The entry of a name, matched exactly (R103). -/
def lookup {α : Type} (table : List (Bytes × α)) (name : Bytes) : Option α :=
  match table with
  | [] => none
  | (n, x) :: rest => if n = name then some x else lookup rest name

/-- The entry that a "CFG-" token names (R103, R106). -/
def resolve {α : Type} (table : List (Bytes × α)) (tok : Bytes) : Option α := (afterCfg tok).bind (lookup table)

/-- The VALSET branch of `Encode` (R100, R106): `args` are the tokens after the command name. -/
def compileValset (env : Env) (S : Schema) (args : List Bytes) : Except HostError (List Instr) :=
  match args with
  | [t1, t2, t3, t4, k, v] =>
    match resolve env.items k with
    | none => .error .unknownConfigKey
    | some item =>
      .ok (.start S.messageId :: (emitFields env (S.fields.take 4) [t1, t2, t3, t4]
        ++ .putu32 item.key :: (emitField env item.valueType v ++ [.finish])))
  | _ => .error .invalidArgumentCount

/-- `Encode` after the tokenizer (R100). -/
def compileTokens (env : Env) : List Bytes → Except HostError (List Instr)
  | [] => .error .unknownCommand
  | cmd :: args =>
    match resolve env.schemas cmd with
    | none => .error .unknownCommand
    | some S =>
      if afterCfg cmd = some VALSET then compileValset env S args
      else .ok (.start S.messageId :: (emitFields env S.fields args ++ [.finish]))

/-- The commands of one encode call, or the kind of its failure (R100); `none` is an absent text (R101). -/
def compile (env : Env) (text : Option Bytes) : Except HostError (List Instr) :=
  match text with
  | none => .error .invalidInput
  | some [] => .error .invalidInput
  | some (c :: cs) => compileTokens env (tokenize env (c :: cs))

/-- The commands the call issues: those of `compile`, or the one ABORT of a failing call (R100 FAIL). -/
def commandsOf (env : Env) (text : Option Bytes) : List Instr :=
  match compile env text with
  | .ok is => is
  | .error k => [.abort k.reason]

/-- What the call answers in the state it leaves (R100): 0 for a failing call, else FLEN. -/
def answerOf (env : Env) (text : Option Bytes) (t : State) : BitVec 32 :=
  match compile env text with
  | .ok _ => statusRead 4 t
  | .error _ => 0

/-- `Encode(text)` on one block instance (R100): the answer and the state it leaves. -/
def encodeCall (env : Env) (text : Option Bytes) (s : State) : Host.Outcome (BitVec 32 × State) Fault Refusal :=
  match issue (commandsOf env text) s with
  | .next t => .next (answerOf env text t, t)
  | .fault f => .fault f
  | .refused e => .refused e

/-! ### What the source fixes of the parameters -/

/-- The value of digits read after the number `n`, most significant first; none where a byte is not a digit. -/
def digitsFrom (base : Nat) (digit : Byte → Option Nat) : Nat → Bytes → Option Nat
  | n, [] => some n
  | n, c :: cs =>
    match digit c with
    | some d => digitsFrom base digit (n * base + d) cs
    | none => none

/-- The decimal digits 30 to 39. -/
def decDigit (c : Byte) : Option Nat := if 0x30 ≤ c.toNat ∧ c.toNat ≤ 0x39 then some (c.toNat - 0x30) else none

/-- The hexadecimal digits 30 to 39 and 41 to 46, in the case `0x1A` of R108 (d) shows (log entry 10). -/
def upperHexDigit (c : Byte) : Option Nat :=
  if 0x41 ≤ c.toNat ∧ c.toNat ≤ 0x46 then some (c.toNat - 0x37) else decDigit c

/-- A hexadecimal digit in either case: accepted by the assembler (log entry 11), and left open to the readers by R108
(log entry 10). -/
def hexDigit (c : Byte) : Option Nat :=
  if 0x61 ≤ c.toNat ∧ c.toNat ≤ 0x66 then some (c.toNat - 0x57) else upperHexDigit c

/-- The value of a token that is a non-empty run of digits. -/
def digitRun (base : Nat) (digit : Byte → Option Nat) (tok : Bytes) : Option Nat :=
  match tok with
  | [] => none
  | c :: cs => digitsFrom base digit 0 (c :: cs)

/-- Whether bytes begin with a digit, or, after a hexadecimal prefix, have a digit of that base next. Both `0x` and `0X`
count as a prefix here, since R108 leaves `0X` open. -/
def digitsStart : Bytes → Bool
  | 0x30 :: 0x78 :: rest | 0x30 :: 0x58 :: rest => rest.head?.any fun c => (hexDigit c).isSome
  | tok => tok.head?.any fun c => (decDigit c).isSome

/-- Whether a token has a numeric prefix under some choice of what R108 leaves open: one sign, `+` among them, may
precede it, `0x` included, and anything may follow it. A token without one is unparsable (R108 (c); log entry 10). -/
def numberStart (tok : Bytes) : Bool :=
  match tok with
  | 0x2D :: rest | 0x2B :: rest => digitsStart rest
  | _ => digitsStart tok

/-- What R102, R108, R109 and R10 fix of the parameters (log entry 10): the space is whitespace; decimal, negative
decimal and "0x" literals whose magnitude fits 64 bits have their values, hexadecimal letters in upper case, as R108 (d)
shows, and in lower case left open, as R108 says; a token without a numeric prefix is unparsable, so it reads as 0; names and keys are
unique; VALSET has four UInt8 prefix fields. -/
structure Env.Lawful (env : Env) : Prop where
  space : env.isSpace 0x20 = true
  decimal : ∀ tok n, digitRun 10 decDigit tok = some n → n < 2 ^ 64 → env.readInt tok = some (BitVec.ofNat 64 n)
  negative : ∀ tok n, digitRun 10 decDigit tok = some n → n < 2 ^ 64 →
    env.readInt (0x2D :: tok) = some (BitVec.ofNat 64 (2 ^ 64 - n))
  hexadecimal : ∀ tok n, digitRun 16 upperHexDigit tok = some n → n < 2 ^ 64 →
    env.readInt (0x30 :: 0x78 :: tok) = some (BitVec.ofNat 64 n)
  hexExample : env.readInt [0x30, 0x78, 0x31, 0x41] = some 26
  unparsable : ∀ tok, numberStart tok = false → parseInt env tok = 0
  schemaNames : (env.schemas.map (·.1)).Nodup
  itemNames : (env.items.map (·.1)).Nodup
  itemKeys : (env.items.map (·.2.key)).Nodup
  valsetPrefix : ∀ S, lookup env.schemas VALSET = some S → S.fields = List.replicate 4 (.num .uint8)

/-- The names TMODE-MODE, TMODE-POS_TYPE and TMODE-HEIGHT (R114). -/
def TMODE_MODE : Bytes := [0x54, 0x4D, 0x4F, 0x44, 0x45, 0x2D, 0x4D, 0x4F, 0x44, 0x45]
def TMODE_POS_TYPE : Bytes := [0x54, 0x4D, 0x4F, 0x44, 0x45, 0x2D, 0x50, 0x4F, 0x53, 0x5F, 0x54, 0x59, 0x50, 0x45]
def TMODE_HEIGHT : Bytes := [0x54, 0x4D, 0x4F, 0x44, 0x45, 0x2D, 0x48, 0x45, 0x49, 0x47, 0x48, 0x54]

/-- What the golden frames reveal of the tables (R113, R114); the 1-byte items are UInt8 or Int8, which the frames
cannot tell apart. -/
structure Env.Recovered (env : Env) : Prop where
  valset : lookup env.schemas VALSET = some ⟨0x8A, List.replicate 4 (.num .uint8)⟩
  mode : ∃ t, (t = .uint8 ∨ t = .int8) ∧ lookup env.items TMODE_MODE = some ⟨0x20030001, .num t⟩
  posType : ∃ t, (t = .uint8 ∨ t = .int8) ∧ lookup env.items TMODE_POS_TYPE = some ⟨0x20030002, .num t⟩
  height : lookup env.items TMODE_HEIGHT = some ⟨0x4003000B, .num .int32⟩

end Sys2Proof.Text
end

