-- ==== Sys2Proof/Machine/Assembler.lean ====
section
/-! DEFINITION. The assembler syntax (30_encoding.md R49) and the pseudo-commands (R50). -/

namespace Sys2Proof.Text

open Sys2Proof.Machine

/-- The pseudo-commands of 30_encoding.md R50. -/
inductive Pseudo where
  /-- PUTS32 "c1c2...cn" -/
  | puts32 (cs : Bytes)
  /-- PUTKEY k -/
  | putkey (k : BitVec 32)
  /-- PUTZERO T, for a numeric T -/
  | putzero (t : NumType)
  /-- PUTEMPTY -/
  | putempty
  /-- CKSUM b1 ... bn -/
  | cksum (bs : Bytes)
  /-- FAIL kind -/
  | fail (k : HostError)
  deriving DecidableEq, Repr

/-- The fixed expansion of a pseudo-command (R50). -/
def Pseudo.expand : Pseudo → List Instr
  | .puts32 cs => emitString cs
  | .putkey k => [.putu32 k]
  | .putzero t => [emitNum t 0]
  | .putempty => [.sbegin, .send]
  | .cksum bs => .ckclr :: bs.map .ckbyte
  | .fail k => [.abort k.reason]

/-- Why a line is not assembled. -/
inductive AsmError where
  /-- the first word is no mnemonic of R43 in upper case -/
  | unknownMnemonic
  /-- an operand where the format has none, none where it has one, or more than one -/
  | operandCount
  /-- the operand is no literal of R49 -/
  | badLiteral
  deriving DecidableEq, Repr

/-- The bytes of ASCII characters. -/
def ascii (cs : List Char) : Bytes := cs.map fun c => BitVec.ofNat 8 c.toNat

/-- The opcode map R43: mnemonic, opcode, format. -/
def opcodeMap : List (Bytes × Byte × Format) :=
  [ (ascii ['S', 'T', 'A', 'R', 'T'], 0x01, .B), (ascii ['F', 'I', 'N', 'I', 'S', 'H'], 0x02, .N),
    (ascii ['A', 'B', 'O', 'R', 'T'], 0x03, .B), (ascii ['C', 'K', 'C', 'L', 'R'], 0x08, .N),
    (ascii ['C', 'K', 'B', 'Y', 'T', 'E'], 0x09, .B), (ascii ['P', 'U', 'T', 'U', '8'], 0x10, .B),
    (ascii ['P', 'U', 'T', 'U', '1', '6'], 0x11, .H), (ascii ['P', 'U', 'T', 'U', '3', '2'], 0x12, .W) ] ++
  [ (ascii ['P', 'U', 'T', 'U', '6', '4'], 0x13, .D), (ascii ['P', 'U', 'T', 'I', '8'], 0x14, .B),
    (ascii ['P', 'U', 'T', 'I', '1', '6'], 0x15, .H), (ascii ['P', 'U', 'T', 'I', '3', '2'], 0x16, .W),
    (ascii ['P', 'U', 'T', 'F', '3', '2'], 0x1A, .W), (ascii ['P', 'U', 'T', 'F', '6', '4'], 0x1B, .D),
    (ascii ['S', 'B', 'E', 'G', 'I', 'N'], 0x20, .N), (ascii ['S', 'C', 'H', 'A', 'R'], 0x21, .B),
    (ascii ['S', 'E', 'N', 'D'], 0x22, .N) ]

/-- A decimal or `0x` hexadecimal literal without sign (R49). -/
def unsignedLiteral (tok : Bytes) : Option Nat :=
  match tok with
  | 0x30 :: 0x78 :: c :: cs => digitRun 16 hexDigit (c :: cs)
  | _ => digitRun 10 decDigit tok

/-- A literal as a 64-bit word: `-k` denotes `(2^64 - k) mod 2^64` (R49); a magnitude of 2^64 or more is refused
(log entry 11). -/
def literal (tok : Bytes) : Option Data :=
  match tok with
  | 0x2D :: rest => (unsignedLiteral rest).bind fun n => if n < 2 ^ 64 then some (BitVec.ofNat 64 (2 ^ 64 - n)) else none
  | _ => (unsignedLiteral tok).bind fun n => if n < 2 ^ 64 then some (BitVec.ofNat 64 n) else none

/-- Blanks between the words of a line: space and tab (log entry 11). -/
def asmSpace (c : Byte) : Bool := c = 0x20 || c = 0x09

/-- The part of a line before a `#` comment (R49). -/
def beforeComment : Bytes → Bytes
  | [] => []
  | c :: cs => if c = 0x23 then [] else c :: beforeComment cs

/-- Assemble the words of a line: `(op, data)`, `data` the whole 64-bit literal, 0 for format N (R49); none for a line
without a command. -/
def assembleWords (toks : List Bytes) : Except AsmError (Option Command) :=
  match toks with
  | [] => .ok none
  | name :: args =>
    match lookup opcodeMap name, args with
    | none, _ => .error .unknownMnemonic
    | some (op, .N), [] => .ok (some (op ++ (0 : Data)))
    | some (op, .B), [x] | some (op, .H), [x] | some (op, .W), [x] | some (op, .D), [x] =>
      match literal x with
      | some d => .ok (some (op ++ d))
      | none => .error .badLiteral
    | _, _ => .error .operandCount

/-- Assemble one line (R49). -/
def assemble (line : Bytes) : Except AsmError (Option Command) :=
  assembleWords (splitTokens asmSpace [] (beforeComment line))

end Sys2Proof.Text
end

