-- ==== Sys2Proof/Safety.lean ====
section
/-! DEFINITION. The invariant of the block (10_state.md R28), what a complete frame is (20_memory.md R34,
40_frame_control.md R58), and the vocabulary of the statements. -/

namespace Sys2Proof.Machine

open Sys2Proof.Text

/-- The first four bytes of a started frame (10_state.md R28): `B5 62 06` and a message id. -/
def HasHeader (s : State) : Prop := ∃ id, Memory.readBytes s.buf 0 4 = some [0xB5, 0x62, 0x06, id]

/-- `buf[0:flen]` is a well-formed frame (R28, 20_memory.md R34): header, length field `flen - 8`, and the checksum of
`buf[2:flen-2]` in the last two bytes. -/
def HasFrame (s : State) : Prop :=
  HasHeader s ∧ Memory.memRead s.buf 4 2 = some (BitVec.ofNat 16 (s.flen.toNat - 8)) ∧
  ∃ bs, Memory.readBytes s.buf 2 (s.flen.toNat - 4) = some bs ∧
    Memory.read s.buf (s.flen.toNat - 2) = some (ck bs).1 ∧ Memory.read s.buf (s.flen.toNat - 1) = some (ck bs).2

/-- The invariant R28, with the value ranges of R17 to R19 and the canonical form of the buffer; every byte below `wp`
has been written. The types of `phase` and `err` hold the encodings that occur and no other. -/
structure Inv (s : State) : Prop where
  wf : Memory.wf s.buf
  inBuffer : ∀ c ∈ s.buf, c.1 < s.cfg.bufSize
  written : ∀ a, a < s.wp.toNat → (Memory.read s.buf a).isSome
  wp_le : s.wp.toNat ≤ s.cfg.bufSize
  scnt_le : s.scnt.toNat ≤ 32
  idle : s.phase = .IDLE → s.wp = 0 ∧ s.scnt = 0 ∧ s.flen = 0 ∧ s.err = .noError
  opened : s.phase = .OPEN → 6 ≤ s.wp.toNat ∧ s.wp.toNat + 2 ≤ s.cfg.bufSize ∧ s.scnt = 0 ∧ s.flen = 0 ∧
    s.err = .noError ∧ HasHeader s
  str : s.phase = .STR → 6 + s.scnt.toNat ≤ s.wp.toNat ∧ s.wp.toNat + 34 ≤ s.cfg.bufSize + s.scnt.toNat ∧
    s.flen = 0 ∧ s.err = .noError ∧ HasHeader s
  done : s.phase = .DONE → s.err = .noError ∧ s.flen = s.wp ∧ 8 ≤ s.flen.toNat ∧ s.scnt = 0 ∧ HasFrame s
  error : s.phase = .ERR ↔ s.err ≠ .noError
  error_flen : s.phase = .ERR → s.flen = 0

/-! ### Vocabulary of the statements -/

/-- The command is always performed, in every phase: dispatch steps 1 to 3 of 40_frame_control.md R53. -/
def alwaysLegal : Instr → Bool
  | .start _ | .ckclr | .ckbyte _ => true
  | .abort b => decide (1 ≤ b.toNat) && decide (b.toNat ≤ 4)
  | .finish | .putu8 _ | .putu16 _ | .putu32 _ | .putu64 _ | .puti8 _ | .puti16 _ | .puti32 _ | .putf32 _
  | .putf64 _ | .sbegin | .schar _ | .send => false

/-- The one phase in which a command that is not always performed is legal (40_frame_control.md R54); none for an
ABORT, whose reserved reasons are legal nowhere. -/
def legalPhase : Instr → Option Phase
  | .start _ | .ckclr | .ckbyte _ | .abort _ => none
  | .finish | .putu8 _ | .putu16 _ | .putu32 _ | .putu64 _ | .puti8 _ | .puti16 _ | .puti32 _ | .putf32 _
  | .putf64 _ | .sbegin => some .OPEN
  | .schar _ | .send => some .STR

/-- The phase after a legal command without a fault (R54). -/
def phaseAfter (i : Instr) (p : Phase) : Phase :=
  match i with
  | .start _ => .OPEN
  | .abort _ => .ERR
  | .ckclr | .ckbyte _ => p
  | .putu8 _ | .putu16 _ | .putu32 _ | .putu64 _ | .puti8 _ | .puti16 _ | .puti32 _ | .putf32 _ | .putf64 _ => .OPEN
  | .sbegin | .schar _ => .STR
  | .send => .OPEN
  | .finish => .DONE

/-- The bytes a command's bounds check asks for (20_memory.md R36); 0 where it has no check. -/
def roomNeeded : Instr → Nat
  | .putu8 _ | .puti8 _ => 1
  | .putu16 _ | .puti16 _ => 2
  | .putu32 _ | .puti32 _ | .putf32 _ => 4
  | .putu64 _ | .putf64 _ => 8
  | .sbegin => 32
  | .start _ | .finish | .abort _ | .ckclr | .ckbyte _ | .schar _ | .send => 0

/-- `i` is a PUT command of width `w` with operand value `v` and behaves as 42_serializer.md R73 says on every state:
appended least significant byte first in OPEN when it fits, everything else unchanged; Fault 10 when it does not fit;
Fault 9 in IDLE, STR and DONE; ignored in ERR. -/
def PutsField (i : Instr) (w v : Nat) : Prop :=
  ∀ s : State,
    (s.phase = .OPEN → s.wp.toNat + w + 2 ≤ s.cfg.bufSize →
      ∃ t, exec i s = .next t ∧ t = { s with buf := t.buf, wp := t.wp } ∧ t.wp.toNat = s.wp.toNat + w ∧
        (∀ k, k < w → Memory.read t.buf (s.wp.toNat + k) = some (BitVec.ofNat 8 (v / 256 ^ k % 256))) ∧
        ∀ a, (a < s.wp.toNat ∨ s.wp.toNat + w ≤ a) → Memory.read t.buf a = Memory.read s.buf a) ∧
    (s.phase = .OPEN → s.cfg.bufSize < s.wp.toNat + w + 2 →
      exec i s = .next { s with err := .bufferOverflow, flen := 0, phase := .ERR }) ∧
    ((s.phase = .IDLE ∨ s.phase = .STR ∨ s.phase = .DONE) →
      exec i s = .next { s with err := .sequenceError, flen := 0, phase := .ERR }) ∧
    (s.phase = .ERR → exec i s = .next s)

/-- A complete field of a frame (40_frame_control.md R58): a PUT command's, or a string group's. -/
inductive Field where
  | num (t : NumType) (d : Data)
  | string (cs : Bytes)
  deriving DecidableEq, Repr

/-- The commands that append a field. -/
def Field.commands : Field → List Instr
  | .num t d => [emitNum t d]
  | .string cs => emitString cs

/-- The bytes a field contributes (42_serializer.md R74, 43_string_packer.md R90). -/
def Field.bytes : Field → List Byte
  | .num t d => leBytes t.width d
  | .string cs => pack32 cs

/-- The width of a field (R58 (c)). -/
def Field.width : Field → Nat
  | .num t _ => t.width
  | .string _ => 32

/-- The complete frame with a message id and a payload (20_memory.md R34). -/
def frameOf (id : Byte) (payload : List Byte) : List Byte :=
  let body := [0x06, id, BitVec.ofNat 8 payload.length, BitVec.ofNat 8 (payload.length / 256)] ++ payload
  [0xB5, 0x62] ++ body ++ [(ck body).1, (ck body).2]

/-- The bytes a field slot of an ordinary call contributes, from the token that feeds it or from none
(44_host_command_compiler.md R104, R105; 43_string_packer.md R90). -/
def slotBytes (env : Env) : FieldType → Option Bytes → List Byte
  | .num .float32, some tok => leBytes 4 (parseF32 env tok)
  | .num .float64, some tok => leBytes 8 (parseF64 env tok)
  | .num t, some tok => leBytes t.width (parseInt env tok)
  | .fixedString32, some tok => pack32 tok
  | .num t, none => List.replicate t.width 0x00
  | .fixedString32, none => List.replicate 32 0x20

/-- The number a list of digits spells, most significant first. -/
def digitsValue (base : Nat) (ds : List Nat) : Nat := ds.foldl (fun n d => base * n + d) 0

/-- Digits as ASCII, those from 10 up as the letters that follow `ten`: 41 for upper case, 61 for lower case. -/
def digitsText (ten : Nat) (ds : List Nat) : Bytes :=
  ds.map fun d => BitVec.ofNat 8 (if d < 10 then 0x30 + d else ten + (d - 10))

/-- A non-empty list of digits of a base that spells a number of at most 64 bits. -/
def Digits64 (base : Nat) (ds : List Nat) : Prop := ds ≠ [] ∧ (∀ d ∈ ds, d < base) ∧ digitsValue base ds < 2 ^ 64

/-- A word of an assembler line: non-empty, without space, tab and `#` (30_encoding.md R49, log entry 11). -/
def IsAsmWord (w : Bytes) : Prop := w ≠ [] ∧ ∀ c ∈ w, c ≠ 0x20 ∧ c ≠ 0x09 ∧ c ≠ 0x23

/-- Blanks of an assembler line: spaces and tabs (log entry 11). -/
def IsAsmBlank (w : Bytes) : Prop := ∀ c ∈ w, c = 0x20 ∨ c = 0x09

end Sys2Proof.Machine
end

