-- ==== Sys2Proof/WellFormed.lean ====
section
/-! DEFINITION. The one operand restriction of the command set: an ABORT reason lies in 1 to 4 (30_encoding.md R45).
The ill-formed ABORT still decodes and has a meaning, that of an illegal command (40_frame_control.md R53 step 5). -/

namespace Sys2Proof

/-- Whether every operand is one the spec does not reserve (30_encoding.md R45: "One operand value is reserved: ABORT
with data[7:0] outside 1 to 4"). -/
def Instr.wellFormed : Instr → Bool
  | .abort b => decide (1 ≤ b.toNat) && decide (b.toNat ≤ 4)
  | .start _ | .finish | .ckclr | .ckbyte _ | .putu8 _ | .putu16 _ | .putu32 _ | .putu64 _ | .puti8 _ | .puti16 _
  | .puti32 _ | .putf32 _ | .putf64 _ | .sbegin | .schar _ | .send => true

end Sys2Proof
end

