-- ==== Sys2Proof/Certificates/Slice0/Obligations.lean ====
section
/-! DEFINITION. The statements for the provers, each in terms of the model and the rule of spec/ it rests on. -/

open Sys2Proof Sys2Proof.Machine Sys2Proof.Text

/-! ### Reset, the invariant, totality -/

/-- 70_reset_and_hazards.md R140, 10_state.md R29: reset leaves every register 0, the phase IDLE, and no byte written,
in every state and with every `BUF_SIZE`; `rst` wins over a command of the same cycle. The model's choices in it: the
commands not yet delivered stay (log entry 6), the reads of a cycle show the state after its reset (log entry 7),
`BUF_SIZE` is a field of the state (log entry 1), and `State.reset` has no command pending (log entry 2). -/
def Obligations.ResetEffect : Prop :=
  (∀ s : State, ∃ t, serve .reset s = .next (.nothing, t) ∧ t.phase = .IDLE ∧ t.err = .noError ∧ t.flen = 0 ∧
    t.wp = 0 ∧ t.scnt = 0 ∧ t.cka = 0 ∧ t.ckb = 0 ∧ (∀ a, Memory.read t.buf a = none) ∧ t.cfg = s.cfg ∧
    t.pending = s.pending ∧ ∀ p : PinsIn, p.rst = true → clockCycle p s = .next (outputs p t, t)) ∧
  State.reset.cfg.bufSize = 128 ∧ State.reset.pending = [] ∧
  ∀ s : State, s.cfg = State.reset.cfg → s.pending = [] → serve .reset s = .next (.nothing, State.reset)

/-- 10_state.md R28: the invariant holds after reset, for every `BUF_SIZE`. -/
def Obligations.ResetMeetsInvariant : Prop := Inv State.reset ∧ ∀ s : State, Inv (resetBlock s)

/-- R28: every step keeps the invariant, from every state that meets it. -/
def Obligations.StepKeepsInvariant : Prop := ∀ s t : State, Inv s → step s = .next t → Inv t

/-- R28: every operation of the host keeps the invariant. -/
def Obligations.PortsKeepInvariant : Prop :=
  ∀ (op : PortOp) (s t : State) (r : Reply), Inv s → serve op s = .next (r, t) → Inv t

/-- 40_frame_control.md R52: a step always yields a next state, for every command word, from every state that meets the
invariant; 60_exceptions.md R129: no state is stuck. -/
def Obligations.StepAlwaysAnswers : Prop :=
  ∀ s : State, Inv s → (∀ w : Command, ∃ t, perform w s = .next t) ∧ (∀ i : Instr, ∃ t, exec i s = .next t) ∧
    ∃ t, step s = .next t

/-! ### Encoding -/

/-- 30_encoding.md R40 to R43: decoding an encoded command gives it back, for every command and every operand value. -/
def Obligations.DecodeEncode : Prop := ∀ i : Instr, decode (encode i) = .ok i

/-- R40 to R42: a word that decodes carries the command's opcode and its operand bits, and the encoder leaves the
unused operand bits 0. -/
def Obligations.EncodeDecode : Prop :=
  ∀ (w : Command) (i : Instr), decode w = .ok i →
    commandOp w = i.opcode ∧ (∀ k, k < i.format.bits → (encode i).getLsbD k = w.getLsbD k) ∧
    ∀ k, i.format.bits ≤ k → k < 64 → (encode i).getLsbD k = false

/-- R45: exactly the 239 unlisted opcodes are illegal; an illegal command raises Fault(8) unless the phase is ERR, where
it is ignored; the one reserved operand value is an ABORT reason outside 1 to 4, treated exactly as an illegal command. -/
def Obligations.IllegalCommands : Prop :=
  (∀ w : Command, (∃ e, decode w = .error e) ↔
    let op := (commandOp w).toNat
    op = 0x00 ∨ (0x04 ≤ op ∧ op ≤ 0x07) ∨ (0x0A ≤ op ∧ op ≤ 0x0F) ∨ (0x17 ≤ op ∧ op ≤ 0x19) ∨
      (0x1C ≤ op ∧ op ≤ 0x1F) ∨ 0x23 ≤ op) ∧
  (∀ (w : Command) (s : State), (∃ e, decode w = .error e) →
    (s.phase = .ERR → perform w s = .next s) ∧
    (s.phase ≠ .ERR → perform w s = .next { s with err := .illegalCommand, flen := 0, phase := .ERR })) ∧
  (∀ (b : Byte) (s : State), (b.toNat = 0 ∨ 4 < b.toNat) →
    (s.phase = .ERR → exec (.abort b) s = .next s) ∧
    (s.phase ≠ .ERR → exec (.abort b) s = .next { s with err := .illegalCommand, flen := 0, phase := .ERR })) ∧
  ∀ i : Instr, i.wellFormed = false ↔ ∃ b : Byte, i = .abort b ∧ (b.toNat = 0 ∨ 4 < b.toNat)

/-- R51: the worked encodings. -/
def Obligations.WorkedEncodings : Prop :=
  decode 0x01000000000000008A = .ok (.start 0x8A) ∧ decode 0x100000000000000001 = .ok (.putu8 1) ∧
  decode 0x120000000020030001 = .ok (.putu32 0x20030001) ∧ decode 0x16FFFFFFFFFFFFFF9C = .ok (.puti32 (-100)) ∧
  decode 0x1600000000FFFFFF9C = .ok (.puti32 (-100)) ∧ decode 0x210000000000000041 = .ok (.schar 0x41) ∧
  decode 0x020000000000000000 = .ok .finish

/-- R42: the operand is the low bits the format names; the remaining high bits of `data` may hold anything and change
nothing: two words that agree on the opcode and on the operand bits are the same command. -/
def Obligations.HighBitsIgnored : Prop :=
  ∀ (w w' : Command) (i : Instr), decode w = .ok i → commandOp w' = commandOp w →
    (∀ k, k < i.format.bits → w'.getLsbD k = w.getLsbD k) →
    decode w' = .ok i ∧ ∀ s : State, perform w' s = perform w s

/-! ### The step -/

/-- A step is the execution of the next presented command (40_frame_control.md R52): where the word decodes, `exec` of
the decoded command, on the state with that word taken. -/
def Obligations.StepRunsDecoded : Prop :=
  (∀ (s : State) (w : Command) (ws : List Command) (i : Instr), s.pending = w :: ws → decode w = .ok i →
    step s = exec i { s with pending := ws }) ∧
  ∀ (s : State) (w : Command), step (s.withFetchWord 72 w.toNat) = perform w s

/-- The model's choice (log entry 2), after 70_reset_and_hazards.md R141: with no command presented the block waits. -/
def Obligations.StepWaits : Prop := ∀ s : State, s.pending = [] → step s = .next s

/-- R37: a command presented last is performed after all those presented before it, and a step takes exactly one. -/
def Obligations.StepTakesOne : Prop :=
  ∀ s t : State, step s = .next t → t.pending = s.pending.tail ∧ t.cfg = s.cfg

/-- 40_frame_control.md R54: the phase table, command by command and phase by phase. -/
def Obligations.PhaseTable : Prop :=
  (∀ (i : Instr) (s t : State), alwaysLegal i = true → exec i s = .next t → t.phase = phaseAfter i s.phase) ∧
  (∀ (i : Instr) (p : Phase) (s t : State), legalPhase i = some p → s.phase = p → exec i s = .next t →
    (t.phase = phaseAfter i p ∧ t.err = s.err) ∨
      (s.cfg.bufSize < s.wp.toNat + roomNeeded i + 2 ∧ t.err = .bufferOverflow ∧ t.phase = .ERR)) ∧
  (∀ (i : Instr) (p : Phase) (s : State), legalPhase i = some p → s.phase ≠ p → s.phase ≠ .ERR →
    exec i s = .next { s with err := .sequenceError, flen := 0, phase := .ERR }) ∧
  (∀ (i : Instr) (s : State), alwaysLegal i = false → s.phase = .ERR → exec i s = .next s) ∧
  ∀ (w : Command) (s : State), (∃ e, decode w = .error e) ∨ (∃ b, decode w = .ok (.abort b) ∧ alwaysLegal (.abort b) = false) →
    (s.phase = .ERR → perform w s = .next s) ∧
    (s.phase ≠ .ERR → ∃ t, perform w s = .next t ∧ t.phase = .ERR ∧ errCode t.err = 8)

/-- 60_exceptions.md R127: one error at most, chosen in the order ignored in ERR, IllegalCommand, SequenceError,
BufferOverflow, whichever of the later ones apply as well. -/
def Obligations.FaultPriority : Prop :=
  ∀ (w : Command) (s : State), (∀ i, decode w = .ok i → alwaysLegal i = false) →
    (s.phase = .ERR → perform w s = .next s) ∧
    (s.phase ≠ .ERR → (∀ i p, decode w = .ok i → legalPhase i ≠ some p) →
      perform w s = .next { s with err := .illegalCommand, flen := 0, phase := .ERR }) ∧
    ∀ i p, decode w = .ok i → legalPhase i = some p → s.phase ≠ .ERR →
      (s.phase ≠ p → perform w s = .next { s with err := .sequenceError, flen := 0, phase := .ERR }) ∧
      (s.phase = p → 0 < roomNeeded i → s.cfg.bufSize < s.wp.toNat + roomNeeded i + 2 →
        perform w s = .next { s with err := .bufferOverflow, flen := 0, phase := .ERR })

/-! ### The frame commands -/

/-- R55: START in every phase, with its encoding. -/
def Obligations.StartEffect : Prop :=
  (∀ d : Data, decode ((0x01 : Byte) ++ d) = .ok (.start (d.setWidth 8))) ∧
  ∀ (b : Byte) (s : State), ∃ t, exec (.start b) s = .next t ∧
    t = { s with buf := t.buf, wp := 6, scnt := 0, err := .noError, flen := 0, phase := .OPEN } ∧
    Memory.read t.buf 0 = some 0xB5 ∧ Memory.read t.buf 1 = some 0x62 ∧ Memory.read t.buf 2 = some 0x06 ∧
    Memory.read t.buf 3 = some b ∧ Memory.read t.buf 4 = some 0 ∧ Memory.read t.buf 5 = some 0 ∧
    ∀ a, 6 ≤ a → Memory.read t.buf a = Memory.read s.buf a

/-- R56: FINISH. It completes in phase OPEN wherever the frame's bytes from the class on have been written and the
checksum fits (10_state.md R28 gives both); it faults in IDLE, STR and DONE, and is ignored in ERR. -/
def Obligations.FinishEffect : Prop :=
  (∀ d : Data, decode ((0x02 : Byte) ++ d) = .ok .finish) ∧
  (∀ s : State, s.phase = .OPEN → 6 ≤ s.wp.toNat → s.wp.toNat + 2 ≤ s.cfg.bufSize →
    (∀ a, 2 ≤ a → a < s.wp.toNat → (Memory.read s.buf a).isSome) →
    ∃ t bs, exec .finish s = .next t ∧
      t = { s with buf := t.buf, cka := t.cka, ckb := t.ckb, wp := t.wp, flen := t.flen, phase := .DONE } ∧
      t.wp.toNat = s.wp.toNat + 2 ∧ t.flen.toNat = 8 + (s.wp.toNat - 6) ∧
      Memory.read t.buf 4 = some (BitVec.ofNat 8 ((s.wp.toNat - 6) % 256)) ∧
      Memory.read t.buf 5 = some (BitVec.ofNat 8 ((s.wp.toNat - 6) / 256)) ∧
      Memory.readBytes t.buf 2 (s.wp.toNat - 2) = some bs ∧ (t.cka, t.ckb) = ck bs ∧
      Memory.read t.buf s.wp.toNat = some t.cka ∧ Memory.read t.buf (s.wp.toNat + 1) = some t.ckb ∧
      ∀ a, a ≠ 4 → a ≠ 5 → a ≠ s.wp.toNat → a ≠ s.wp.toNat + 1 → Memory.read t.buf a = Memory.read s.buf a) ∧
  (∀ s : State, (s.phase = .IDLE ∨ s.phase = .STR ∨ s.phase = .DONE) →
    exec .finish s = .next { s with err := .sequenceError, flen := 0, phase := .ERR }) ∧
  ∀ s : State, s.phase = .ERR → exec .finish s = .next s

/-- R57: ABORT with a reason 1 to 4 in every phase; any other reason is an illegal command. -/
def Obligations.AbortEffect : Prop :=
  (∀ d : Data, decode ((0x03 : Byte) ++ d) = .ok (.abort (d.setWidth 8))) ∧
  (∀ (b : Byte) (s : State), 1 ≤ b.toNat → b.toNat ≤ 4 →
    ∃ e, (errCode e).toNat = b.toNat ∧ exec (.abort b) s = .next { s with err := e, flen := 0, phase := .ERR }) ∧
  ∀ (b : Byte) (s : State), (b.toNat = 0 ∨ 4 < b.toNat) →
    (s.phase = .ERR → exec (.abort b) s = .next s) ∧
    (s.phase ≠ .ERR → exec (.abort b) s = .next { s with err := .illegalCommand, flen := 0, phase := .ERR })

/-- R60: START b then FINISH, from every state: the 8-byte frame `B5 62 06 b 00 00 A B`, `A = 6 + b`, `B = 24 + 3b`. -/
def Obligations.EmptyPayload : Prop :=
  ∀ (b : Byte) (s : State), ∃ t, issue [.start b, .finish] s = .next t ∧ t.phase = .DONE ∧ t.flen = 8 ∧
    frameBytes t = some [0xB5, 0x62, 0x06, b, 0x00, 0x00, BitVec.ofNat 8 ((6 + b.toNat) % 256),
      BitVec.ofNat 8 ((24 + 3 * b.toNat) % 256)]

/-- R58: START, any complete fields that fit, FINISH, from every state and with every `BUF_SIZE`: the phase is DONE,
`flen` is 8 plus the field widths, the buffer holds the frame of 20_memory.md R34, and the length and checksum
invariants hold. -/
def Obligations.CompletedFrame : Prop :=
  ∀ (id : Byte) (fields : List Field) (s : State), 8 + (fields.map Field.width).sum ≤ s.cfg.bufSize →
    ∃ t, issue (.start id :: (fields.flatMap Field.commands ++ [.finish])) s = .next t ∧
      t.phase = .DONE ∧ t.err = .noError ∧ t.flen.toNat = 8 + (fields.map Field.width).sum ∧
      frameBytes t = some (frameOf id (fields.flatMap Field.bytes)) ∧ HasFrame t

/-- R59: the final frame depends only on the commands from the most recent START onward and on `BUF_SIZE`; here for every
sequence of the seventeen commands. -/
def Obligations.FrameDeterminism : Prop :=
  ∀ (id : Byte) (cs : List Instr) (s₁ s₂ t₁ t₂ : State), s₁.cfg = s₂.cfg →
    issue (.start id :: cs) s₁ = .next t₁ → issue (.start id :: cs) s₂ = .next t₂ →
    t₁.phase = t₂.phase ∧ t₁.err = t₂.err ∧ t₁.flen = t₂.flen ∧ frameBytes t₁ = frameBytes t₂

/-! ### The checksum unit -/

/-- R63, with its encoding; R62 and R63: `ck` is the left fold of `ckstep` from `(0, 0)`, the second sum adding the first
already updated, both modulo 256. -/
def Obligations.CkclrEffect : Prop :=
  (∀ (a c x : Byte), ((ckstep (a, c) x).1.toNat = (a.toNat + x.toNat) % 256) ∧
    (ckstep (a, c) x).2.toNat = (c.toNat + (a.toNat + x.toNat)) % 256) ∧
  (∀ s : List Byte, ck s = s.foldl ckstep (0, 0)) ∧
  (∀ d : Data, decode ((0x08 : Byte) ++ d) = .ok .ckclr) ∧
  ∀ s : State, exec .ckclr s = .next { s with cka := 0, ckb := 0 }

/-- R64: CKBYTE in every phase, with its encoding. -/
def Obligations.CkbyteEffect : Prop :=
  (∀ d : Data, decode ((0x09 : Byte) ++ d) = .ok (.ckbyte (d.setWidth 8))) ∧
  ∀ (b : Byte) (s : State), ∃ t, exec (.ckbyte b) s = .next t ∧ t = { s with cka := t.cka, ckb := t.ckb } ∧
    t.cka.toNat = (s.cka.toNat + b.toNat) % 256 ∧ t.ckb.toNat = (s.ckb.toNat + t.cka.toNat) % 256

/-- R67: the closed form of the checksum. -/
def Obligations.ChecksumClosedForm : Prop :=
  ∀ bs : List Byte, (ck bs).1.toNat = (bs.map BitVec.toNat).sum % 256 ∧
    (ck bs).2.toNat = ((bs.zipIdx.map fun p => (bs.length - p.2) * p.1.toNat).sum) % 256

/-- R68: CKCLR and one CKBYTE per byte compute the checksum of the bytes, in every phase, and change nothing else. -/
def Obligations.StandaloneChecksum : Prop :=
  ∀ (bs : List Byte) (s : State), ∃ t, issue (.ckclr :: bs.map .ckbyte) s = .next t ∧
    t = { s with cka := (ck bs).1, ckb := (ck bs).2 } ∧
    statusRead 1 t = (ck bs).1.setWidth 32 ∧ statusRead 2 t = (ck bs).2.setWidth 32

/-- R16: the accumulators are written by CKCLR, CKBYTE and FINISH, and by nothing else. -/
def Obligations.AccumulatorWriters : Prop :=
  ∀ (w : Command) (s t : State), perform w s = .next t → (t.cka ≠ s.cka ∨ t.ckb ≠ s.ckb) →
    decode w = .ok .ckclr ∨ (∃ b, decode w = .ok (.ckbyte b)) ∨ (decode w = .ok .finish ∧ s.phase = .OPEN)

/-! ### The serializer -/

/-- R76 to R79 (with R73): the unsigned commands, their encodings, effect, faults and frame. -/
def Obligations.UnsignedPuts : Prop :=
  (∀ d : Data, decode ((0x10 : Byte) ++ d) = .ok (.putu8 (d.setWidth 8)) ∧
    decode ((0x11 : Byte) ++ d) = .ok (.putu16 (d.setWidth 16)) ∧
    decode ((0x12 : Byte) ++ d) = .ok (.putu32 (d.setWidth 32)) ∧ decode ((0x13 : Byte) ++ d) = .ok (.putu64 d)) ∧
  (∀ b : Byte, PutsField (.putu8 b) 1 b.toNat) ∧ (∀ v : BitVec 16, PutsField (.putu16 v) 2 v.toNat) ∧
  (∀ v : BitVec 32, PutsField (.putu32 v) 4 v.toNat) ∧ ∀ v : BitVec 64, PutsField (.putu64 v) 8 v.toNat

/-- R80 to R82 (with R73): the signed commands, whose operand is the two's-complement pattern of a value. -/
def Obligations.SignedPuts : Prop :=
  (∀ d : Data, decode ((0x14 : Byte) ++ d) = .ok (.puti8 (d.setWidth 8)) ∧
    decode ((0x15 : Byte) ++ d) = .ok (.puti16 (d.setWidth 16)) ∧
    decode ((0x16 : Byte) ++ d) = .ok (.puti32 (d.setWidth 32))) ∧
  (∀ b : Byte, PutsField (.puti8 b) 1 b.toNat) ∧ (∀ v : BitVec 16, PutsField (.puti16 v) 2 v.toNat) ∧
  (∀ v : BitVec 32, PutsField (.puti32 v) 4 v.toNat) ∧
  ∀ z : Int, PutsField (.puti8 (BitVec.ofInt 8 z)) 1 (z % 2 ^ 8).toNat ∧
    PutsField (.puti16 (BitVec.ofInt 16 z)) 2 (z % 2 ^ 16).toNat ∧
    PutsField (.puti32 (BitVec.ofInt 32 z)) 4 (z % 2 ^ 32).toNat ∧
    ∀ s : State, exec (.puti8 (BitVec.ofInt 8 z)) s = exec (.putu8 (BitVec.ofInt 8 z)) s ∧
      exec (.puti16 (BitVec.ofInt 16 z)) s = exec (.putu16 (BitVec.ofInt 16 z)) s ∧
      exec (.puti32 (BitVec.ofInt 32 z)) s = exec (.putu32 (BitVec.ofInt 32 z)) s

/-- R83, R84 (with R73): the float commands move the raw bit pattern, whatever it is. -/
def Obligations.FloatPuts : Prop :=
  (∀ d : Data, decode ((0x1A : Byte) ++ d) = .ok (.putf32 (d.setWidth 32)) ∧
    decode ((0x1B : Byte) ++ d) = .ok (.putf64 d)) ∧
  (∀ v : BitVec 32, PutsField (.putf32 v) 4 v.toNat) ∧ (∀ v : BitVec 64, PutsField (.putf64 v) 8 v.toNat) ∧
  ∀ (v : BitVec 32) (u : BitVec 64) (s : State), exec (.putf32 v) s = exec (.putu32 v) s ∧
    exec (.putf64 u) s = exec (.putu64 u) s

/-- R74: reading the field back with `MemRead` gives `data mod 2^(8w)`, for every numeric type. -/
def Obligations.FieldReadsBack : Prop :=
  ∀ (T : NumType) (d : Data) (s : State), s.phase = .OPEN → s.wp.toNat + T.width + 2 ≤ s.cfg.bufSize →
    ∃ t, exec (emitNum T d) s = .next t ∧ t.wp.toNat = s.wp.toNat + T.width ∧
      Memory.memRead t.buf s.wp.toNat T.width = some (d.setWidth (8 * T.width))

/-- R87: a wide put that fits is its two halves, low half first. -/
def Obligations.PutSplits : Prop :=
  ∀ s : State, s.phase = .OPEN →
    (∀ v : BitVec 16, s.wp.toNat + 4 ≤ s.cfg.bufSize →
      exec (.putu16 v) s = issue [.putu8 (v.extractLsb' 0 8), .putu8 (v.extractLsb' 8 8)] s) ∧
    (∀ v : BitVec 32, s.wp.toNat + 6 ≤ s.cfg.bufSize →
      exec (.putu32 v) s = issue [.putu16 (v.extractLsb' 0 16), .putu16 (v.extractLsb' 16 16)] s) ∧
    ∀ v : BitVec 64, s.wp.toNat + 10 ≤ s.cfg.bufSize →
      exec (.putu64 v) s = issue [.putu32 (v.extractLsb' 0 32), .putu32 (v.extractLsb' 32 32)] s

/-! ### The string packer -/

/-- 43_string_packer.md R90: `pack32`, for every byte string; the pad byte 20 is log entry 3. -/
def Obligations.Pack32 : Prop :=
  ∀ cs : List Byte, (pack32 cs).length = 32 ∧
    ∀ i, i < 32 → (pack32 cs)[i]? = if i < min cs.length 32 then cs[i]? else some 0x20

/-- R91: SBEGIN, with its encoding, in every phase. -/
def Obligations.SbeginEffect : Prop :=
  (∀ d : Data, decode ((0x20 : Byte) ++ d) = .ok .sbegin) ∧
  ∀ s : State,
    (s.phase = .OPEN → s.wp.toNat + 32 + 2 ≤ s.cfg.bufSize →
      exec .sbegin s = .next { s with scnt := 0, phase := .STR }) ∧
    (s.phase = .OPEN → s.cfg.bufSize < s.wp.toNat + 32 + 2 →
      exec .sbegin s = .next { s with err := .bufferOverflow, flen := 0, phase := .ERR }) ∧
    ((s.phase = .IDLE ∨ s.phase = .STR ∨ s.phase = .DONE) →
      exec .sbegin s = .next { s with err := .sequenceError, flen := 0, phase := .ERR }) ∧
    (s.phase = .ERR → exec .sbegin s = .next s)

/-- R92: SCHAR, with its encoding, in every phase. Below 32 characters it completes wherever `wp` is an offset of the
buffer, which 10_state.md R28 gives; from the 33rd on the character is dropped. -/
def Obligations.ScharEffect : Prop :=
  (∀ d : Data, decode ((0x21 : Byte) ++ d) = .ok (.schar (d.setWidth 8))) ∧
  ∀ (b : Byte) (s : State),
    (s.phase = .STR → s.scnt.toNat < 32 → s.wp.toNat < s.cfg.bufSize →
      ∃ t, exec (.schar b) s = .next t ∧ t = { s with buf := t.buf, wp := t.wp, scnt := t.scnt } ∧
        t.wp.toNat = s.wp.toNat + 1 ∧ t.scnt.toNat = s.scnt.toNat + 1 ∧
        Memory.read t.buf s.wp.toNat = some b ∧
        ∀ a, a ≠ s.wp.toNat → Memory.read t.buf a = Memory.read s.buf a) ∧
    (s.phase = .STR → 32 ≤ s.scnt.toNat → exec (.schar b) s = .next s) ∧
    ((s.phase = .IDLE ∨ s.phase = .OPEN ∨ s.phase = .DONE) →
      exec (.schar b) s = .next { s with err := .sequenceError, flen := 0, phase := .ERR }) ∧
    (s.phase = .ERR → exec (.schar b) s = .next s)

/-- R93: SEND, with its encoding, in every phase. It completes wherever the rest of the field lies in the buffer, which
10_state.md R28 gives. The pad byte 20 is log entry 3. -/
def Obligations.SendEffect : Prop :=
  (∀ d : Data, decode ((0x22 : Byte) ++ d) = .ok .send) ∧
  ∀ s : State,
    (s.phase = .STR → s.wp.toNat + (32 - s.scnt.toNat) ≤ s.cfg.bufSize →
      ∃ t, exec .send s = .next t ∧ t = { s with buf := t.buf, wp := t.wp, scnt := 0, phase := .OPEN } ∧
        t.wp.toNat = s.wp.toNat + (32 - s.scnt.toNat) ∧
        (∀ k, k < 32 - s.scnt.toNat → Memory.read t.buf (s.wp.toNat + k) = some 0x20) ∧
        ∀ a, (a < s.wp.toNat ∨ s.wp.toNat + (32 - s.scnt.toNat) ≤ a) → Memory.read t.buf a = Memory.read s.buf a) ∧
    ((s.phase = .IDLE ∨ s.phase = .OPEN ∨ s.phase = .DONE) →
      exec .send s = .next { s with err := .sequenceError, flen := 0, phase := .ERR }) ∧
    (s.phase = .ERR → exec .send s = .next s)

/-- R94: SBEGIN that fits, any SCHARs with CKCLR and CKBYTE between them, SEND: the field is `pack32` of the characters,
`wp` is 32 further, and nothing else changed but the accumulators, which only the CKCLR and CKBYTE commands write
(their values are those of CkclrEffect and CkbyteEffect). The pad byte is log entry 3. -/
def Obligations.StringFieldLaw : Prop :=
  ∀ (cs : List Instr) (s : State), s.phase = .OPEN → s.wp.toNat + 34 ≤ s.cfg.bufSize → s.scnt = 0 →
    (∀ c ∈ cs, c = .ckclr ∨ (∃ b, c = .ckbyte b) ∨ ∃ b, c = .schar b) →
    ∃ t, issue (.sbegin :: (cs ++ [.send])) s = .next t ∧
      t = { s with buf := t.buf, wp := t.wp, cka := t.cka, ckb := t.ckb } ∧ t.wp.toNat = s.wp.toNat + 32 ∧
      Memory.readBytes t.buf s.wp.toNat 32 =
        some (pack32 (cs.filterMap fun c => match c with | .schar b => some b | _ => none)) ∧
      (∀ a, (a < s.wp.toNat ∨ s.wp.toNat + 32 ≤ a) → Memory.read t.buf a = Memory.read s.buf a) ∧
      ((∀ c ∈ cs, ∃ b, c = .schar b) → t.cka = s.cka ∧ t.ckb = s.ckb)

/-! ### Errors -/

/-- 60_exceptions.md R121: a command that enters ERR, by a fault or a valid ABORT, writes `err`, `flen` and `phase` and
nothing else. -/
def Obligations.ErrorTransition : Prop :=
  ∀ (w : Command) (s t : State), perform w s = .next t → t.phase = .ERR → (s.phase ≠ .ERR ∨ t.err ≠ s.err) →
    t = { s with err := t.err, flen := 0, phase := .ERR }

/-- R131: in ERR a fault condition is ignored; only a valid ABORT or START rewrites `err`. -/
def Obligations.NoNesting : Prop :=
  ∀ (w : Command) (s : State), s.phase = .ERR →
    ((∃ e, decode w = .error e) ∨ (∃ i, decode w = .ok i ∧ alwaysLegal i = false) → perform w s = .next s) ∧
    ∀ t, perform w s = .next t → t.err ≠ s.err →
      (∃ b, decode w = .ok (.start b)) ∨ ∃ b, decode w = .ok (.abort b) ∧ 1 ≤ b.toNat ∧ b.toNat ≤ 4

/-- R130: START is the only command that leaves ERR, and it restores nothing. -/
def Obligations.LeavingError : Prop :=
  ∀ (w : Command) (s t : State), s.phase = .ERR → perform w s = .next t → t.phase ≠ .ERR →
    ∃ b, decode w = .ok (.start b) ∧ t.phase = .OPEN ∧ t.err = .noError ∧ t.flen = 0

/-- 70_reset_and_hazards.md R141: reset is the only way into phase IDLE; a command that ends in IDLE began there, and is
CKCLR or CKBYTE. -/
def Obligations.IdleOnlyByReset : Prop :=
  ∀ (w : Command) (s t : State), perform w s = .next t → t.phase = .IDLE →
    s.phase = .IDLE ∧ (decode w = .ok .ckclr ∨ ∃ b, decode w = .ok (.ckbyte b))

/-- R107, R129: after a fault or an ABORT, every command but START, ABORT, CKCLR and CKBYTE is ignored, however many
follow: the error is kept and FLEN stays 0. -/
def Obligations.ErrorIsSticky : Prop :=
  ∀ (ws : List Command) (s : State), s.phase = .ERR →
    (∀ w ∈ ws, (∃ e, decode w = .error e) ∨ ∃ i, decode w = .ok i ∧ (alwaysLegal i = false ∨ i = .ckclr ∨ ∃ b, i = .ckbyte b)) →
    ∃ t, performAll ws s = .next t ∧ t = { s with cka := t.cka, ckb := t.ckb }

/-! ### Memory and status -/

/-- 20_memory.md R35: apart from START's header and FINISH's length patch, a step writes only at `wp` and upward, `wp`
only grows, and everything from the new `wp` on is as before. -/
def Obligations.WriteDiscipline : Prop :=
  ∀ (w : Command) (s t : State), Inv s → perform w s = .next t → (∀ b, decode w ≠ .ok (.start b)) →
    s.wp.toNat ≤ t.wp.toNat ∧
    (∀ a, a < s.wp.toNat → (decode w = .ok .finish → a ≠ 4 ∧ a ≠ 5) → Memory.read t.buf a = Memory.read s.buf a) ∧
    ∀ a, t.wp.toNat ≤ a → Memory.read t.buf a = Memory.read s.buf a

/-- 40_frame_control.md R61, 10_state.md R19: a step changes `flen` only to 0, or, by FINISH, to the new `wp`; from a
state that meets the invariant a non-zero FLEN occurs only in phase DONE. -/
def Obligations.ResultLength : Prop :=
  ∀ (w : Command) (s t : State), perform w s = .next t →
    (t.flen ≠ s.flen → t.flen = 0 ∨ (decode w = .ok .finish ∧ t.flen = t.wp ∧ t.phase = .DONE)) ∧
    (Inv s → statusRead 4 t ≠ 0 → t.phase = .DONE)

/-- 10_state.md R24, R25: the status map; every register reads as the rule's table says, with unlisted bits 0, and a
read changes nothing; the phase encodings of R20 and the error codes of 60_exceptions.md R122. -/
def Obligations.StatusRegisters : Prop :=
  (∀ (sel : BitVec 3) (s : State), serve (.statusRead sel) s = .next (.status (statusRead sel s), s)) ∧
  (∀ s : State, (statusRead 0 s).toNat = (phaseCode s.phase).toNat + 16 * (errCode s.err).toNat ∧
    (statusRead 1 s).toNat = s.cka.toNat ∧ (statusRead 2 s).toNat = s.ckb.toNat ∧
    (statusRead 3 s).toNat = s.wp.toNat ∧ (statusRead 4 s).toNat = s.flen.toNat ∧
    (statusRead 5 s).toNat = s.scnt.toNat ∧ (statusRead 6 s).toNat = s.cfg.bufSize ∧ statusRead 7 s = 0) ∧
  (phaseCode .IDLE = 0 ∧ phaseCode .OPEN = 1 ∧ phaseCode .STR = 2 ∧ phaseCode .DONE = 3 ∧ phaseCode .ERR = 4) ∧
  (errCode .noError = 0 ∧ errCode .invalidInput = 1 ∧ errCode .unknownCommand = 2 ∧ errCode .unknownConfigKey = 3 ∧
    errCode .invalidArgumentCount = 4 ∧ errCode .illegalCommand = 8 ∧ errCode .sequenceError = 9 ∧
    errCode .bufferOverflow = 10) ∧
  (∀ (c : Config), statusRead 0 (State.resetWith c) = 0 ∧ statusRead 1 (State.resetWith c) = 0 ∧
    statusRead 2 (State.resetWith c) = 0 ∧ statusRead 3 (State.resetWith c) = 0 ∧
    statusRead 4 (State.resetWith c) = 0 ∧ statusRead 5 (State.resetWith c) = 0)

/-- 20_memory.md R38: `BufRead` in every phase; defined only below `BUF_SIZE` and on a byte written since reset, refused
otherwise; no side effect; in DONE the whole frame can be read. -/
def Obligations.BufferRead : Prop :=
  (∀ (a : Nat) (s : State) (b : Byte), a < s.cfg.bufSize → Memory.read s.buf a = some b →
    serve (.bufRead a) s = .next (.byte b, s)) ∧
  (∀ (a : Nat) (s : State), a < s.cfg.bufSize → Memory.read s.buf a = none →
    serve (.bufRead a) s = .refused .readNeverWritten) ∧
  (∀ (a : Nat) (s : State), s.cfg.bufSize ≤ a → serve (.bufRead a) s = .refused .readBeyondBuffer) ∧
  ∀ s : State, Inv s → s.phase = .DONE → ∀ a, a < s.flen.toNat → ∃ b, serve (.bufRead a) s = .next (.byte b, s)

/-! ### The host layer -/

/-- 44_host_command_compiler.md R101: an absent or empty text fails with InvalidInput, from every state. -/
def Obligations.InvalidInput : Prop :=
  ∀ (env : Env) (text : Option Bytes) (s : State), (text = none ∨ text = some []) →
    encodeCall env text s = .next (0, { s with err := .invalidInput, flen := 0, phase := .ERR })

/-- R103: a text with no token, or whose first token lacks "CFG-" or names no schema exactly, fails with
UnknownCommand. -/
def Obligations.UnknownCommand : Prop :=
  ∀ (env : Env) (text : Bytes) (s : State), text ≠ [] →
    (tokenize env text = [] ∨ ∃ tok toks, tokenize env text = tok :: toks ∧
      ((∀ name, tok ≠ [0x43, 0x46, 0x47, 0x2D] ++ name) ∨
        ∃ name, tok = [0x43, 0x46, 0x47, 0x2D] ++ name ∧ ∀ e ∈ env.schemas, e.1 ≠ name)) →
    encodeCall env (some text) s = .next (0, { s with err := .unknownCommand, flen := 0, phase := .ERR })

/-- R102: the tokens are the maximal runs of non-whitespace, in order: none is empty, none contains whitespace, together
they are the text without its whitespace; a run that ends at whitespace or with the text is one token; at most 32 are
kept, the first ones. -/
def Obligations.Tokenizer : Prop :=
  ∀ (env : Env) (text : Bytes),
    (∀ tok ∈ splitTokens env.isSpace [] text, tok ≠ [] ∧ ∀ c ∈ tok, env.isSpace c = false) ∧
    (splitTokens env.isSpace [] text).flatten = text.filter (fun c => !env.isSpace c) ∧
    (∀ pre post : Bytes, (∀ c ∈ pre, env.isSpace c = false) → pre ≠ [] → ∀ c, env.isSpace c = true →
      splitTokens env.isSpace [] (pre ++ c :: post) = pre :: splitTokens env.isSpace [] post) ∧
    (∀ pre : Bytes, (∀ c ∈ pre, env.isSpace c = false) → pre ≠ [] → splitTokens env.isSpace [] pre = [pre]) ∧
    (∀ c, env.isSpace c = true → ∀ post : Bytes,
      splitTokens env.isSpace [] (c :: post) = splitTokens env.isSpace [] post) ∧
    tokenize env text = (splitTokens env.isSpace [] text).take 32

/-- R106: a VALSET call with a token count other than 7 fails with InvalidArgumentCount; with 7 tokens and a key token
that lacks "CFG-" or names no item, with UnknownConfigKey. -/
def Obligations.ValsetFailures : Prop :=
  ∀ (env : Env) (text : Bytes) (toks : List Bytes) (S : Schema) (s : State),
    tokenize env text = ([0x43, 0x46, 0x47, 0x2D] ++ VALSET) :: toks → lookup env.schemas VALSET = some S →
    (toks.length ≠ 6 →
      encodeCall env (some text) s = .next (0, { s with err := .invalidArgumentCount, flen := 0, phase := .ERR })) ∧
    ∀ t1 t2 t3 t4 k v, toks = [t1, t2, t3, t4, k, v] →
      ((∀ name, k ≠ [0x43, 0x46, 0x47, 0x2D] ++ name) ∨
        ∃ name, k = [0x43, 0x46, 0x47, 0x2D] ++ name ∧ ∀ e ∈ env.items, e.1 ≠ name) →
      encodeCall env (some text) s = .next (0, { s with err := .unknownConfigKey, flen := 0, phase := .ERR })

/-- R106: a VALSET call that resolves and fits gives the frame of its prefix bytes, key and value, of length
`8 + 4 + 4 + width(valueType)`. The premise on the schema is R106's four unsigned-byte prefix fields, the clause
`valsetPrefix` of `Env.Lawful` (log entry 10). -/
def Obligations.ValsetFrame : Prop :=
  ∀ (env : Env) (text : Bytes) (t1 t2 t3 t4 v name : Bytes) (S : Schema) (item : ConfigItem) (s : State),
    S.fields = List.replicate 4 (.num .uint8) → lookup env.schemas VALSET = some S → lookup env.items name = some item →
    tokenize env text =
      [[0x43, 0x46, 0x47, 0x2D] ++ VALSET, t1, t2, t3, t4, [0x43, 0x46, 0x47, 0x2D] ++ name, v] →
    16 + item.valueType.width ≤ s.cfg.bufSize →
    ∃ t, encodeCall env (some text) s = .next (BitVec.ofNat 32 (16 + item.valueType.width), t) ∧ t.phase = .DONE ∧
      frameBytes t = some (frameOf S.messageId
        ([t1, t2, t3, t4].map (fun tok => (parseInt env tok).setWidth 8) ++ leBytes 4 item.key ++
          match item.valueType with
          | .num T => leBytes T.width (operandOf env T v)
          | .fixedString32 => pack32 v))

/-- R104, R105: an ordinary call never fails for missing arguments: where the schema's fields fit the buffer it answers 8
plus their widths, whatever the tokens after the first are, and its payload is what each slot in schema order takes from
its own token (the token `j` after the name feeds slot `j`), or zeros or 32 pad bytes (log entry 3) where there is none. -/
def Obligations.OrdinaryCallLength : Prop :=
  ∀ (env : Env) (text : Bytes) (name : Bytes) (toks : List Bytes) (S : Schema) (s : State),
    tokenize env text = ([0x43, 0x46, 0x47, 0x2D] ++ name) :: toks → name ≠ VALSET →
    lookup env.schemas name = some S → 8 + (S.fields.map FieldType.width).sum ≤ s.cfg.bufSize →
    ∃ t, encodeCall env (some text) s = .next (BitVec.ofNat 32 (8 + (S.fields.map FieldType.width).sum), t) ∧
      t.phase = .DONE ∧ HasFrame t ∧
      frameBytes t = some (frameOf S.messageId (S.fields.zipIdx.flatMap fun p => slotBytes env p.1 toks[p.2]?))

/-- 44_host_command_compiler.md R108 (a) to (d), R115, for every lawful reader (log entry 10): decimal and `0x` literals of
at most 64 bits have their values, `-k` is `2^64 - k`, a hexadecimal and a decimal token of one value encode the same field
alike. Unparsable tokens read as 0: those without a decimal digit, those that begin with neither a sign nor a digit, those
with none after a first sign, and those with no hexadecimal digit after `0x`. -/
def Obligations.IntegerLiterals : Prop :=
  ∀ env : Env, env.Lawful →
    (∀ ds, Digits64 10 ds → (parseInt env (digitsText 0x41 ds)).toNat = digitsValue 10 ds ∧
      (parseInt env (0x2D :: digitsText 0x41 ds)).toNat = (2 ^ 64 - digitsValue 10 ds) % 2 ^ 64) ∧
    (∀ ds, Digits64 16 ds → (parseInt env (0x30 :: 0x78 :: digitsText 0x41 ds)).toNat = digitsValue 16 ds) ∧
    (∀ (T : NumType) (ds hs : List Nat), Digits64 10 ds → Digits64 16 hs → digitsValue 10 ds = digitsValue 16 hs →
      T ≠ .float32 → T ≠ .float64 →
      emitField env (.num T) (0x30 :: 0x78 :: digitsText 0x41 hs) = emitField env (.num T) (digitsText 0x41 ds)) ∧
    (∀ tok, (∀ c ∈ tok, c.toNat < 0x30 ∨ 0x39 < c.toNat) → parseInt env tok = 0) ∧
    (∀ (c : Byte) (rest : Bytes), (c.toNat < 0x30 ∨ 0x39 < c.toNat) →
      (c ≠ 0x2B → c ≠ 0x2D → parseInt env (c :: rest) = 0) ∧
      parseInt env (0x2B :: c :: rest) = 0 ∧ parseInt env (0x2D :: c :: rest) = 0) ∧
    parseInt env [0x30, 0x78] = 0 ∧
    ∀ (c : Byte) (rest : Bytes), (∀ d, d < 16 → [c] ≠ digitsText 0x41 [d] ∧ [c] ≠ digitsText 0x61 [d]) →
      parseInt env (0x30 :: 0x78 :: c :: rest) = 0

/-- 60_exceptions.md R124, R125: a call that follows R100 never causes IllegalCommand or SequenceError; it always
answers, and what it answers is FLEN. -/
def Obligations.WellBehavedHost : Prop :=
  ∀ (env : Env) (text : Option Bytes) (s : State), Inv s →
    ∃ a t, encodeCall env text s = .next (a, t) ∧ Inv t ∧ a = statusRead 4 t ∧
      t.err ≠ .illegalCommand ∧ t.err ≠ .sequenceError ∧ (t.phase = .DONE ∨ t.phase = .ERR)

/-- 44_host_command_compiler.md R112: encoding the same command twice yields the same answer and the same frame, from
any two states with the same `BUF_SIZE`. -/
def Obligations.CallDeterminism : Prop :=
  ∀ (env : Env) (text : Option Bytes) (s₁ s₂ t₁ t₂ : State) (a₁ a₂ : BitVec 32), s₁.cfg = s₂.cfg →
    encodeCall env text s₁ = .next (a₁, t₁) → encodeCall env text s₂ = .next (a₂, t₂) →
    a₁ = a₂ ∧ t₁.phase = t₂.phase ∧ t₁.err = t₂.err ∧ frameBytes t₁ = frameBytes t₂

/-- 40_frame_control.md R52, 30_encoding.md R48: issuing commands is `Step` of their encoded words, one after the
other. -/
def Obligations.IssueIsStep : Prop :=
  ∀ (is : List Instr) (s : State), performAll (is.map encode) s = issue is s

/-- 20_memory.md R37: the commands the host has presented are performed in order, one a step: as many steps as there
are pending commands perform them all. -/
def Obligations.PendingInOrder : Prop :=
  ∀ (ws : List Command) (s t : State), s.pending = ws → performAll ws { s with pending := [] } = .next t →
    Host.Core.run { State := State, Fault := Fault, Refusal := Refusal, step := step, reset := State.reset }
      ws.length s = .next t

/-- 30_encoding.md R49, R43: the words of a line assemble to the mnemonic's opcode with the literal as the whole data, or
0 for format N, for every row of the map; a wrong operand count or another word is refused; every assembled word is a
command. A literal denotes its number, `-k` denotes `2^64 - k`, hexadecimal digits in either case (log entry 11). -/
def Obligations.AssembledDecodes : Prop :=
  let plain : List (Bytes × Byte) :=
    [(ascii ['F', 'I', 'N', 'I', 'S', 'H'], 0x02), (ascii ['C', 'K', 'C', 'L', 'R'], 0x08),
      (ascii ['S', 'B', 'E', 'G', 'I', 'N'], 0x20), (ascii ['S', 'E', 'N', 'D'], 0x22)]
  let withOperand : List (Bytes × Byte) :=
    [(ascii ['S', 'T', 'A', 'R', 'T'], 0x01), (ascii ['A', 'B', 'O', 'R', 'T'], 0x03),
      (ascii ['C', 'K', 'B', 'Y', 'T', 'E'], 0x09), (ascii ['P', 'U', 'T', 'U', '8'], 0x10),
      (ascii ['P', 'U', 'T', 'U', '1', '6'], 0x11), (ascii ['P', 'U', 'T', 'U', '3', '2'], 0x12),
      (ascii ['P', 'U', 'T', 'U', '6', '4'], 0x13)] ++
    [(ascii ['P', 'U', 'T', 'I', '8'], 0x14), (ascii ['P', 'U', 'T', 'I', '1', '6'], 0x15),
      (ascii ['P', 'U', 'T', 'I', '3', '2'], 0x16), (ascii ['P', 'U', 'T', 'F', '3', '2'], 0x1A),
      (ascii ['P', 'U', 'T', 'F', '6', '4'], 0x1B), (ascii ['S', 'C', 'H', 'A', 'R'], 0x21)]
  (∀ r ∈ plain, assembleWords [r.1] = .ok (some (r.2 ++ (0 : Data))) ∧
    ∀ x toks, assembleWords (r.1 :: x :: toks) = .error .operandCount) ∧
  (∀ r ∈ withOperand, (∀ x d, literal x = some d → assembleWords [r.1, x] = .ok (some (r.2 ++ d))) ∧
    (∀ x, literal x = none → assembleWords [r.1, x] = .error .badLiteral) ∧
    assembleWords [r.1] = .error .operandCount ∧
    ∀ x y toks, assembleWords (r.1 :: x :: y :: toks) = .error .operandCount) ∧
  (∀ name toks, (∀ r ∈ plain ++ withOperand, r.1 ≠ name) → assembleWords (name :: toks) = .error .unknownMnemonic) ∧
  (∀ (toks : List Bytes) (w : Command), assembleWords toks = .ok (some w) →
    ∃ i, decode w = .ok i ∧ ∀ name x, toks = [name, x] → literal x = some (commandData w)) ∧
  (∀ ds, Digits64 10 ds → literal (digitsText 0x41 ds) = some (BitVec.ofNat 64 (digitsValue 10 ds)) ∧
    literal (0x2D :: digitsText 0x41 ds) = some (BitVec.ofNat 64 (2 ^ 64 - digitsValue 10 ds))) ∧
  ∀ ten ds, (ten = 0x41 ∨ ten = 0x61) → Digits64 16 ds →
    literal (0x30 :: 0x78 :: digitsText ten ds) = some (BitVec.ofNat 64 (digitsValue 16 ds)) ∧
    literal (0x2D :: 0x30 :: 0x78 :: digitsText ten ds) = some (BitVec.ofNat 64 (2 ^ 64 - digitsValue 16 ds))

/-- R49: a line is its words, apart by blanks (log entry 11), with blanks before and after them and a `#` comment at the
end; a line without a word assembles to no command. -/
def Obligations.AssembledLine : Prop :=
  assembleWords [] = .ok none ∧
  ∀ (lead tail : Bytes) (ws : List (Bytes × Bytes)),
    IsAsmBlank lead → (tail = [] ∨ ∃ note, tail = 0x23 :: note) →
    (∀ p ∈ ws, IsAsmWord p.1 ∧ IsAsmBlank p.2 ∧ p.2 ≠ []) →
    assemble (lead ++ ws.flatMap (fun p => p.1 ++ p.2) ++ tail) = assembleWords (ws.map (·.1)) ∧
    ∀ w, IsAsmWord w →
      assemble (lead ++ ws.flatMap (fun p => p.1 ++ p.2) ++ w ++ tail) = assembleWords (ws.map (·.1) ++ [w])
end

