-- ==== Sys2Proof/Laws/Memory.lean ====
section
/-! SUPPORT. The laws of the frame buffer: read after write, the canonical form, extensionality, byte ranges. -/

namespace Sys2Proof.Machine

@[simp] theorem Memory.read_nil (a : Nat) : Memory.read [] a = none := rfl

theorem Memory.read_cons (k : Nat) (v : Byte) (m : Memory) (a : Nat) :
    Memory.read ((k, v) :: m) a = if k = a then some v else Memory.read m a := rfl

/-- A read after a write: the written byte at its offset, every other offset as before. -/
theorem Memory.read_write (m : Memory) (a : Nat) (b : Byte) (x : Nat) :
    Memory.read (Memory.write m a b) x = if a = x then some b else Memory.read m x := by
  induction m with
  | nil => simp [Memory.write, Memory.read_cons]
  | cons c m ih =>
    obtain ⟨k, v⟩ := c
    simp only [Memory.write]
    split
    · simp [Memory.read_cons]
    · split
      · subst a; by_cases h : k = x <;> simp [Memory.read_cons, h]
      · simp only [Memory.read_cons, ih]
        by_cases h : k = x <;> by_cases h' : a = x <;> simp_all

/-- A read after a multi-byte write. -/
theorem Memory.read_writeBytes (bs : List Byte) (m : Memory) (a x : Nat) :
    Memory.read (Memory.writeBytes m a bs) x =
      if a ≤ x ∧ x < a + bs.length then bs[x - a]? else Memory.read m x := by
  induction bs generalizing m a with
  | nil => simp only [Memory.writeBytes, List.length_nil]; rw [if_neg (by omega)]
  | cons b bs ih =>
    simp only [Memory.writeBytes, ih, List.length_cons, Memory.read_write]
    by_cases h1 : a = x
    · subst h1; rw [if_neg (by omega), if_pos (by omega)]; simp
    · by_cases h2 : a + 1 ≤ x ∧ x < a + 1 + bs.length
      · rw [if_pos h2, if_pos (by omega), show x - a = (x - (a + 1)) + 1 by omega, List.getElem?_cons_succ]
      · rw [if_neg h2, if_neg h1, if_neg (by omega)]

/-- A byte of a multi-byte write, by its position. -/
theorem Memory.read_writeBytes_at (bs : List Byte) (m : Memory) (a k : Nat) (h : k < bs.length) :
    Memory.read (Memory.writeBytes m a bs) (a + k) = bs[k]? := by
  rw [Memory.read_writeBytes, if_pos (by omega), Nat.add_sub_cancel_left]

/-- Bytes outside a multi-byte write are as before. -/
theorem Memory.read_writeBytes_outside (bs : List Byte) (m : Memory) (a x : Nat) (h : x < a ∨ a + bs.length ≤ x) :
    Memory.read (Memory.writeBytes m a bs) x = Memory.read m x := by
  rw [Memory.read_writeBytes, if_neg (by omega)]

/-- The offsets of a write are the old ones and the written one. -/
theorem Memory.mem_write (m : Memory) (a : Nat) (b : Byte) (c : Host.Cell) (h : c ∈ Memory.write m a b) :
    c = (a, b) ∨ c ∈ m := by
  induction m with
  | nil => simpa [Memory.write] using h
  | cons d m ih =>
    obtain ⟨k, v⟩ := d
    simp only [Memory.write] at h
    split at h
    · simpa using h
    · split at h
      · rcases List.mem_cons.1 h with h | h
        · exact .inl h
        · exact .inr (List.mem_cons_of_mem _ h)
      · rcases List.mem_cons.1 h with h | h
        · exact .inr (by simp [h])
        · exact (ih h).imp_right (List.mem_cons_of_mem _)

/-- A write keeps the canonical form. -/
theorem Memory.write_wf (m : Memory) (a : Nat) (b : Byte) (h : Memory.wf m) : Memory.wf (Memory.write m a b) := by
  induction m with
  | nil => simp [Memory.write, Memory.wf]
  | cons d m ih =>
    obtain ⟨k, v⟩ := d
    obtain ⟨hk, hm⟩ := List.pairwise_cons.1 h
    simp only [Memory.write]
    split
    · rename_i hak
      refine List.pairwise_cons.2 ⟨fun c hc => ?_, h⟩
      rcases List.mem_cons.1 hc with rfl | hc
      · exact hak
      · exact Nat.lt_trans hak (hk c hc)
    · split
      · rename_i hak
        exact List.pairwise_cons.2 ⟨fun c hc => hak ▸ hk c hc, hm⟩
      · refine List.pairwise_cons.2 ⟨fun c hc => ?_, ih hm⟩
        rcases Memory.mem_write m a b c hc with rfl | hc
        · show k < a; omega
        · exact hk c hc

/-- A multi-byte write keeps the canonical form. -/
theorem Memory.writeBytes_wf (bs : List Byte) (m : Memory) (a : Nat) (h : Memory.wf m) :
    Memory.wf (Memory.writeBytes m a bs) := by
  induction bs generalizing m a with
  | nil => exact h
  | cons b bs ih => exact ih _ _ (Memory.write_wf m a b h)

/-- A multi-byte write below a bound lists no offset at or beyond it. -/
theorem Memory.writeBytes_bound (bs : List Byte) (m : Memory) (a n : Nat) (h : ∀ c ∈ m, c.1 < n)
    (hn : a + bs.length ≤ n) : ∀ c ∈ Memory.writeBytes m a bs, c.1 < n := by
  induction bs generalizing m a with
  | nil => exact h
  | cons b bs ih =>
    simp only [List.length_cons] at hn
    refine ih _ _ (fun c hc => ?_) (by omega)
    rcases Memory.mem_write m a b c hc with rfl | hc
    · show a < n; omega
    · exact h c hc

/-- An offset below every listed one reads as never written. -/
theorem Memory.read_none_of_lt (m : Memory) (a : Nat) (h : ∀ c ∈ m, a < c.1) : Memory.read m a = none := by
  induction m with
  | nil => rfl
  | cons d m ih =>
    obtain ⟨k, v⟩ := d
    have hk : a < k := h (k, v) (by simp)
    rw [Memory.read_cons, if_neg (by omega)]
    exact ih fun c hc => h c (List.mem_cons_of_mem _ hc)

/-- Equal memories are equal lists: two canonical memories that read the same are the same. -/
theorem Memory.ext_read (m n : Memory) (hm : Memory.wf m) (hn : Memory.wf n)
    (h : ∀ a, Memory.read m a = Memory.read n a) : m = n := by
  induction m generalizing n with
  | nil =>
    cases n with
    | nil => rfl
    | cons d n => obtain ⟨k, v⟩ := d; simpa [Memory.read_cons] using h k
  | cons c m ih =>
    obtain ⟨k, v⟩ := c
    obtain ⟨hk, hm'⟩ := List.pairwise_cons.1 hm
    cases n with
    | nil => simpa [Memory.read_cons] using h k
    | cons d n =>
      obtain ⟨l, w⟩ := d
      obtain ⟨hl, hn'⟩ := List.pairwise_cons.1 hn
      have hkl : k = l := by
        rcases Nat.lt_trichotomy k l with hlt | heq | hlt
        · have := h k
          rw [Memory.read_none_of_lt ((l, w) :: n) k] at this
          · simp [Memory.read_cons] at this
          · intro c hc
            rcases List.mem_cons.1 hc with rfl | hc
            · exact hlt
            · exact Nat.lt_trans hlt (hl c hc)
        · exact heq
        · have := h l
          rw [Memory.read_none_of_lt ((k, v) :: m) l] at this
          · simp [Memory.read_cons] at this
          · intro c hc
            rcases List.mem_cons.1 hc with rfl | hc
            · exact hlt
            · exact Nat.lt_trans hlt (hk c hc)
      subst hkl
      have hv : v = w := by simpa [Memory.read_cons] using h k
      subst hv
      congr 1
      refine ih n hm' hn' fun a => ?_
      have ha := h a
      simp only [Memory.read_cons] at ha
      by_cases hka : k = a
      · subst hka
        rw [Memory.read_none_of_lt m k hk, Memory.read_none_of_lt n k hl]
      · simpa [hka] using ha

/-- Writing two runs one after the other is writing them joined. -/
theorem Memory.writeBytes_append (xs ys : List Byte) (m : Memory) (a : Nat) :
    Memory.writeBytes m a (xs ++ ys) = Memory.writeBytes (Memory.writeBytes m a xs) (a + xs.length) ys := by
  induction xs generalizing m a with
  | nil => rfl
  | cons x xs ih =>
    simp only [List.cons_append, Memory.writeBytes, ih, List.length_cons]
    rw [show a + 1 + xs.length = a + (xs.length + 1) by omega]

/-! ### Byte ranges -/

/-- A range reads as a list exactly when each of its bytes does. -/
theorem Memory.readBytes_eq_some (m : Memory) (a n : Nat) (bs : List Byte) :
    Memory.readBytes m a n = some bs ↔ bs.length = n ∧ ∀ k, k < n → Memory.read m (a + k) = bs[k]? := by
  induction n generalizing a bs with
  | zero => cases bs <;> simp [Memory.readBytes]
  | succ n ih =>
    constructor
    · intro h
      simp only [Memory.readBytes] at h
      split at h
      · rename_i b cs hb hcs
        obtain rfl := Option.some.inj h
        obtain ⟨hl, hr⟩ := (ih (a + 1) cs).1 hcs
        refine ⟨by simp [hl], fun k hk => ?_⟩
        cases k with
        | zero => simpa using hb
        | succ k => simpa [Nat.add_assoc, Nat.add_comm 1] using hr k (by omega)
      · cases h
    · rintro ⟨hl, hr⟩
      cases bs with
      | nil => simp at hl
      | cons b cs =>
        have h0 : Memory.read m a = some b := by simpa using hr 0 (by omega)
        have h1 : Memory.readBytes m (a + 1) n = some cs :=
          (ih (a + 1) cs).2 ⟨by simpa using hl, fun k hk => by
            simpa [Nat.add_assoc, Nat.add_comm 1] using hr (k + 1) (by omega)⟩
        simp [Memory.readBytes, h0, h1]

/-- A range of written bytes reads as some list. -/
theorem Memory.readBytes_isSome (m : Memory) (a n : Nat) (h : ∀ k, k < n → (Memory.read m (a + k)).isSome) :
    ∃ bs, Memory.readBytes m a n = some bs := by
  induction n generalizing a with
  | zero => exact ⟨[], rfl⟩
  | succ n ih =>
    obtain ⟨bs, hbs⟩ := ih (a + 1) fun k hk => by
      simpa [Nat.add_assoc, Nat.add_comm 1] using h (k + 1) (by omega)
    obtain ⟨b, hb⟩ := Option.isSome_iff_exists.1 (by simpa using h 0 (by omega))
    exact ⟨b :: bs, by simp [Memory.readBytes, hb, hbs]⟩

/-- Reading a range depends on its bytes alone. -/
theorem Memory.readBytes_congr (m n : Memory) (a k : Nat)
    (h : ∀ x, a ≤ x → x < a + k → Memory.read m x = Memory.read n x) :
    Memory.readBytes m a k = Memory.readBytes n a k := by
  induction k generalizing a with
  | zero => rfl
  | succ k ih =>
    simp only [Memory.readBytes, h a (by omega) (by omega),
      ih (a + 1) fun x h1 h2 => h x (by omega) (by omega)]

/-- Two adjacent ranges read as one. -/
theorem Memory.readBytes_append (m : Memory) (a j k : Nat) (xs ys : List Byte)
    (hx : Memory.readBytes m a j = some xs) (hy : Memory.readBytes m (a + j) k = some ys) :
    Memory.readBytes m a (j + k) = some (xs ++ ys) := by
  obtain ⟨lx, rx⟩ := (Memory.readBytes_eq_some ..).1 hx
  obtain ⟨ly, ry⟩ := (Memory.readBytes_eq_some ..).1 hy
  refine (Memory.readBytes_eq_some ..).2 ⟨by simp [lx, ly], fun i hi => ?_⟩
  by_cases h : i < j
  · rw [rx i h, List.getElem?_append_left (by omega)]
  · rw [List.getElem?_append_right (by omega), lx, ← ry (i - j) (by omega)]
    congr 1
    omega

/-- A multi-byte write reads back. -/
theorem Memory.readBytes_writeBytes (m : Memory) (a : Nat) (bs : List Byte) :
    Memory.readBytes (Memory.writeBytes m a bs) a bs.length = some bs :=
  (Memory.readBytes_eq_some ..).2 ⟨rfl, fun k hk => Memory.read_writeBytes_at bs m a k hk⟩

/-! ### Little-endian bytes -/

@[simp] theorem leBytes_length (n : Nat) {k : Nat} (v : BitVec k) : (leBytes n v).length = n := by simp [leBytes]

/-- Byte `i` of a word is its bits `8i+7:8i` (00_scope.md R13). -/
theorem leBytes_getElem? (n i : Nat) {k : Nat} (v : BitVec k) (h : i < n) :
    (leBytes n v)[i]? = some (v.extractLsb' (8 * i) 8) := by
  simp [leBytes, h]

/-- Byte `i` of a word as a number (42_serializer.md R74). -/
theorem leBytes_byte (i : Nat) {k : Nat} (v : BitVec k) :
    v.extractLsb' (8 * i) 8 = BitVec.ofNat 8 (v.toNat / 256 ^ i % 256) := by
  apply BitVec.eq_of_toNat_eq
  simp [BitVec.extractLsb'_toNat, Nat.shiftRight_eq_div_pow, Nat.pow_mul]

/-- The bytes of a word spell its value modulo `2^(8n)` (42_serializer.md R74). -/
theorem leValue_leBytes (n : Nat) {k : Nat} (v : BitVec k) : leValue (leBytes n v) = v.toNat % 256 ^ n := by
  have run : ∀ n j, leValue ((List.range' j n).map fun i => v.extractLsb' (8 * i) 8) =
      v.toNat / 256 ^ j % 256 ^ n := by
    intro n
    induction n with
    | zero => intro j; simp [leValue, Nat.mod_one]
    | succ n ih =>
      intro j
      rw [List.range'_succ, List.map_cons, leValue, ih, leBytes_byte]
      simp only [BitVec.toNat_ofNat, Nat.reducePow, Nat.mod_mod]
      rw [show 256 ^ (n + 1) = 256 * 256 ^ n from by rw [Nat.pow_succ, Nat.mul_comm], Nat.mod_mul,
        show 256 ^ (j + 1) = 256 ^ j * 256 from Nat.pow_succ .., ← Nat.div_div_eq_div_mul]
  have h := run n 0
  simpa [leBytes, List.range_eq_range'] using h

end Sys2Proof.Machine
end

