-- ==== Sys2Proof/Laws/State.lean ====
section
/-! SUPPORT. One lemma per field for each named update of State, so that no proof unfolds one. -/

namespace Sys2Proof.Machine

section EnterError
variable (e : ErrCode) (s : State)

@[simp] theorem enterError_cfg : (enterError e s).cfg = s.cfg := rfl
@[simp] theorem enterError_phase : (enterError e s).phase = .ERR := rfl
@[simp] theorem enterError_err : (enterError e s).err = e := rfl
@[simp] theorem enterError_flen : (enterError e s).flen = 0 := rfl
@[simp] theorem enterError_wp : (enterError e s).wp = s.wp := rfl
@[simp] theorem enterError_scnt : (enterError e s).scnt = s.scnt := rfl
@[simp] theorem enterError_cka : (enterError e s).cka = s.cka := rfl
@[simp] theorem enterError_ckb : (enterError e s).ckb = s.ckb := rfl
@[simp] theorem enterError_buf : (enterError e s).buf = s.buf := rfl
@[simp] theorem enterError_pending : (enterError e s).pending = s.pending := rfl

end EnterError

section ResetWith
variable (c : Config)

@[simp] theorem resetWith_cfg : (State.resetWith c).cfg = c := rfl
@[simp] theorem resetWith_phase : (State.resetWith c).phase = .IDLE := rfl
@[simp] theorem resetWith_err : (State.resetWith c).err = .noError := rfl
@[simp] theorem resetWith_flen : (State.resetWith c).flen = 0 := rfl
@[simp] theorem resetWith_wp : (State.resetWith c).wp = 0 := rfl
@[simp] theorem resetWith_scnt : (State.resetWith c).scnt = 0 := rfl
@[simp] theorem resetWith_cka : (State.resetWith c).cka = 0 := rfl
@[simp] theorem resetWith_ckb : (State.resetWith c).ckb = 0 := rfl
@[simp] theorem resetWith_buf : (State.resetWith c).buf = [] := rfl
@[simp] theorem resetWith_pending : (State.resetWith c).pending = [] := rfl

end ResetWith

theorem resetBlock_eq (s : State) : resetBlock s = { State.resetWith s.cfg with pending := s.pending } := rfl

section CommandStream
variable (w : Command) (s : State)

@[simp] theorem takeCommand_nil (h : s.pending = []) : takeCommand s = none := by simp [takeCommand, h]
@[simp] theorem takeCommand_cons (ws : List Command) (h : s.pending = w :: ws) :
    takeCommand s = some (w, { s with pending := ws }) := by simp [takeCommand, h]
@[simp] theorem present_pending : (present w s).pending = s.pending ++ [w] := rfl
@[simp] theorem withFetchWord_pending (nbits v : Nat) :
    (s.withFetchWord nbits v).pending = tableCommand nbits v :: s.pending := rfl
@[simp] theorem withFetchWord_rest (nbits v : Nat) :
    { s.withFetchWord nbits v with pending := s.pending } = s := rfl

end CommandStream

/-- `BUF_SIZE` lies in the range of R7, for every configuration. -/
theorem bufSize_bounds (c : Config) : 8 ≤ c.bufSize ∧ c.bufSize ≤ 65543 := by
  have := c.capacity.isLt
  unfold Config.bufSize
  omega

end Sys2Proof.Machine
end

