-- ==== Sys2Proof/Laws/Ops.lean ====
section
/-! SUPPORT. One lemma per shared operation: everything it can do when it answers a next state, and when it does. -/

namespace Sys2Proof.Machine

@[simp] theorem andThen_next (s : State) (k : State → Result) : andThen (.next s) k = k s := rfl
@[simp] theorem andThen_fault (f : Fault) (k : State → Result) : andThen (.fault f) k = .fault f := rfl
@[simp] theorem andThen_refused (r : Refusal) (k : State → Result) : andThen (.refused r) k = .refused r := rfl

/-- A sequence answers a next state only through one of its first part. -/
theorem andThen_eq_next {r : Result} {k : State → Result} {t : State} (h : andThen r k = .next t) :
    ∃ u, r = .next u ∧ k u = .next t := by
  cases r with
  | next u => exact ⟨u, rfl, h⟩
  | fault f => cases h
  | refused e => cases h

theorem illegalCommand_err {s : State} (h : s.phase = .ERR) : illegalCommand s = .next s := if_pos h

theorem illegalCommand_raises {s : State} (h : s.phase ≠ .ERR) :
    illegalCommand s = .next (enterError .illegalCommand s) := if_neg h

/-- All an illegal command can do (40_frame_control.md R53 steps 4, 5). -/
theorem illegalCommand_cases {s t : State} (h : illegalCommand s = .next t) :
    (s.phase = .ERR ∧ t = s) ∨ (s.phase ≠ .ERR ∧ t = enterError .illegalCommand s) := by
  unfold illegalCommand at h
  split at h <;> cases h
  · exact .inl ⟨‹_›, rfl⟩
  · exact .inr ⟨‹_›, rfl⟩

section InPhase
variable {p : Phase} {body : State → Result} {s t : State}

theorem inPhase_err (h : s.phase = .ERR) : inPhase p body s = .next s := if_pos h

theorem inPhase_legal (h : s.phase = p) (hp : p ≠ .ERR) : inPhase p body s = body s := by
  simp [inPhase, h, hp]

theorem inPhase_illegal (h : s.phase ≠ p) (he : s.phase ≠ .ERR) :
    inPhase p body s = .next (enterError .sequenceError s) := by
  simp [inPhase, h, he]

/-- All a command legal in one phase can do (R53 steps 4, 6). -/
theorem inPhase_cases (h : inPhase p body s = .next t) :
    (s.phase = .ERR ∧ t = s) ∨ (s.phase = p ∧ body s = .next t) ∨
      (s.phase ≠ .ERR ∧ s.phase ≠ p ∧ t = enterError .sequenceError s) := by
  unfold inPhase at h
  split at h
  · cases h; exact .inl ⟨‹_›, rfl⟩
  · split at h
    · exact .inr (.inl ⟨‹_›, h⟩)
    · cases h; exact .inr (.inr ⟨‹_›, ‹_›, rfl⟩)

end InPhase

section Reserving
variable {w : Nat} {body : State → Result} {s t : State}

theorem reserving_fits (h : s.wp.toNat + w + 2 ≤ s.cfg.bufSize) : reserving w body s = body s := if_pos h

theorem reserving_overflow (h : s.cfg.bufSize < s.wp.toNat + w + 2) :
    reserving w body s = .next (enterError .bufferOverflow s) := if_neg (by omega)

/-- All a bounds-checked command can do (R53 step 7). -/
theorem reserving_cases (h : reserving w body s = .next t) :
    (s.wp.toNat + w + 2 ≤ s.cfg.bufSize ∧ body s = .next t) ∨
      (s.cfg.bufSize < s.wp.toNat + w + 2 ∧ t = enterError .bufferOverflow s) := by
  unfold reserving at h
  split at h
  · exact .inl ⟨‹_›, h⟩
  · cases h; exact .inr ⟨by omega, rfl⟩

end Reserving

section Append
variable {bs : List Byte} {s t : State}

theorem append_eq (h : s.wp.toNat + bs.length ≤ s.cfg.bufSize) :
    append bs s = .next { s with buf := Memory.writeBytes s.buf s.wp.toNat bs,
                                 wp := s.wp + BitVec.ofNat 17 bs.length } := if_pos h

/-- `wp` advances by the number of bytes and never wraps (10_state.md R15). -/
theorem wp_add_toNat (n : Nat) (h : s.wp.toNat + n ≤ s.cfg.bufSize) :
    (s.wp + BitVec.ofNat 17 n).toNat = s.wp.toNat + n := by
  have := (bufSize_bounds s.cfg).2
  rw [BitVec.toNat_add, BitVec.toNat_ofNat, Nat.mod_eq_of_lt (a := n) (by omega), Nat.mod_eq_of_lt (by omega)]

/-- All an append can do (42_serializer.md R89, 20_memory.md R33). -/
theorem append_cases (h : append bs s = .next t) :
    s.wp.toNat + bs.length ≤ s.cfg.bufSize ∧ t.wp.toNat = s.wp.toNat + bs.length ∧
      t = { s with buf := Memory.writeBytes s.buf s.wp.toNat bs, wp := s.wp + BitVec.ofNat 17 bs.length } := by
  unfold append at h
  split at h
  · cases h; exact ⟨‹_›, wp_add_toNat _ ‹_›, rfl⟩
  · cases h

end Append

end Sys2Proof.Machine
end

