-- ==== Sys2Proof/Laws/Commands.lean ====
section
/-! SUPPORT. One inversion lemma per command family: everything a command can do when it answers a next state. -/

namespace Sys2Proof.Machine

/-! ### The checksum functions -/

@[simp] theorem ck_nil : ck [] = (0, 0) := rfl

theorem ck_append (xs ys : List Byte) : ck (xs ++ ys) = ys.foldl ckstep (ck xs) := List.foldl_append

@[simp] theorem ck_concat (xs : List Byte) (x : Byte) : ck (xs ++ [x]) = ckstep (ck xs) x := ck_append xs [x]

@[simp] theorem pack32_length (cs : List Byte) : (pack32 cs).length = 32 := by
  simp only [pack32, STR_LEN, List.length_append, List.length_take, List.length_replicate]
  omega

/-! ### Inversions -/

section Cases
variable {s t : State}

/-- All a PUT command can do (42_serializer.md R73). -/
theorem put_cases {w k : Nat} {v : BitVec k} (h : put w v s = .next t) :
    (s.phase = .ERR ∧ t = s) ∨
    (s.phase = .OPEN ∧ s.wp.toNat + w + 2 ≤ s.cfg.bufSize ∧ t.wp.toNat = s.wp.toNat + w ∧
      t = { s with buf := Memory.writeBytes s.buf s.wp.toNat (leBytes w v), wp := s.wp + BitVec.ofNat 17 w }) ∨
    (s.phase = .OPEN ∧ s.cfg.bufSize < s.wp.toNat + w + 2 ∧ t = enterError .bufferOverflow s) ∨
    (s.phase ≠ .ERR ∧ s.phase ≠ .OPEN ∧ t = enterError .sequenceError s) := by
  rcases inPhase_cases h with h | ⟨hp, h⟩ | h
  · exact .inl h
  · rcases reserving_cases h with ⟨hw, h⟩ | h
    · obtain ⟨-, h1, h2⟩ := append_cases h
      simp only [leBytes_length] at h1 h2
      exact .inr (.inl ⟨hp, hw, h1, h2⟩)
    · exact .inr (.inr (.inl ⟨hp, h⟩))
  · exact .inr (.inr (.inr h))

/-- A legal PUT that fits completes (R73). -/
theorem put_completes {w k : Nat} {v : BitVec k} (hp : s.phase = .OPEN) (hw : s.wp.toNat + w + 2 ≤ s.cfg.bufSize) :
    put w v s = .next { s with buf := Memory.writeBytes s.buf s.wp.toNat (leBytes w v),
                               wp := s.wp + BitVec.ofNat 17 w } := by
  unfold put
  rw [inPhase_legal hp (by decide), reserving_fits hw, append_eq (by simp only [leBytes_length]; omega), leBytes_length]

/-- All SBEGIN can do (43_string_packer.md R91). -/
theorem execSbegin_cases (h : execSbegin s = .next t) :
    (s.phase = .ERR ∧ t = s) ∨
    (s.phase = .OPEN ∧ s.wp.toNat + 34 ≤ s.cfg.bufSize ∧ t = { s with scnt := 0, phase := .STR }) ∨
    (s.phase = .OPEN ∧ s.cfg.bufSize < s.wp.toNat + 34 ∧ t = enterError .bufferOverflow s) ∨
    (s.phase ≠ .ERR ∧ s.phase ≠ .OPEN ∧ t = enterError .sequenceError s) := by
  rcases inPhase_cases h with h | ⟨hp, h⟩ | h
  · exact .inl h
  · rcases reserving_cases h with ⟨hw, h⟩ | ⟨hw, h⟩
    · cases h; exact .inr (.inl ⟨hp, hw, rfl⟩)
    · exact .inr (.inr (.inl ⟨hp, hw, h⟩))
  · exact .inr (.inr (.inr h))

/-- All SCHAR can do (R92). -/
theorem execSchar_cases {b : Byte} (h : execSchar b s = .next t) :
    (s.phase = .ERR ∧ t = s) ∨
    (s.phase = .STR ∧ s.scnt.toNat < 32 ∧ s.wp.toNat + 1 ≤ s.cfg.bufSize ∧ t.wp.toNat = s.wp.toNat + 1 ∧
      t = { s with buf := Memory.writeBytes s.buf s.wp.toNat [b], wp := s.wp + BitVec.ofNat 17 1,
                   scnt := s.scnt + 1 }) ∨
    (s.phase = .STR ∧ 32 ≤ s.scnt.toNat ∧ t = s) ∨
    (s.phase ≠ .ERR ∧ s.phase ≠ .STR ∧ t = enterError .sequenceError s) := by
  rcases inPhase_cases h with h | ⟨hp, h⟩ | h
  · exact .inl h
  · simp only [STR_LEN] at h
    by_cases hc : s.scnt.toNat < 32
    · rw [if_pos hc] at h
      obtain ⟨u, hu, h⟩ := andThen_eq_next h
      obtain ⟨h1, h2, rfl⟩ := append_cases hu
      cases h
      exact .inr (.inl ⟨hp, hc, h1, h2, rfl⟩)
    · rw [if_neg hc] at h
      cases h
      exact .inr (.inr (.inl ⟨hp, by omega, rfl⟩))
  · exact .inr (.inr (.inr h))

/-- All SEND can do (R93). -/
theorem execSend_cases (h : execSend s = .next t) :
    (s.phase = .ERR ∧ t = s) ∨
    (s.phase = .STR ∧ s.wp.toNat + (32 - s.scnt.toNat) ≤ s.cfg.bufSize ∧
      t.wp.toNat = s.wp.toNat + (32 - s.scnt.toNat) ∧
      t = { s with buf := Memory.writeBytes s.buf s.wp.toNat (List.replicate (32 - s.scnt.toNat) PAD),
                   wp := s.wp + BitVec.ofNat 17 (32 - s.scnt.toNat), scnt := 0, phase := .OPEN }) ∨
    (s.phase ≠ .ERR ∧ s.phase ≠ .STR ∧ t = enterError .sequenceError s) := by
  rcases inPhase_cases h with h | ⟨hp, h⟩ | h
  · exact .inl h
  · obtain ⟨u, hu, h⟩ := andThen_eq_next h
    obtain ⟨h1, h2, rfl⟩ := append_cases hu
    cases h
    simp only [STR_LEN, List.length_replicate] at h1 h2 ⊢
    exact .inr (.inl ⟨hp, h1, h2, trivial⟩)
  · exact .inr (.inr h)

/-- All FINISH can do (40_frame_control.md R56). -/
theorem execFinish_cases (h : execFinish s = .next t) :
    (s.phase = .ERR ∧ t = s) ∨
    (s.phase = .OPEN ∧ s.wp.toNat + 2 ≤ s.cfg.bufSize ∧ t.wp.toNat = s.wp.toNat + 2 ∧
      ∃ bs, Memory.readBytes (patchLength s) 2 (s.wp.toNat - 2) = some bs ∧
        t = { s with buf := Memory.writeBytes (patchLength s) s.wp.toNat [(ck bs).1, (ck bs).2],
                     cka := (ck bs).1, ckb := (ck bs).2, wp := s.wp + BitVec.ofNat 17 2,
                     flen := s.wp + BitVec.ofNat 17 2, phase := .DONE }) ∨
    (s.phase ≠ .ERR ∧ s.phase ≠ .OPEN ∧ t = enterError .sequenceError s) := by
  rcases inPhase_cases h with h | ⟨hp, h⟩ | h
  · exact .inl h
  · cases hr : Memory.readBytes (patchLength s) 2 (s.wp.toNat - 2) with
    | none => simp [frameChecksum, hr] at h
    | some bs =>
      simp only [frameChecksum, hr, Option.map_some] at h
      obtain ⟨u, hu, h⟩ := andThen_eq_next h
      obtain ⟨h1, h2, rfl⟩ := append_cases hu
      cases h
      exact .inr (.inl ⟨hp, h1, h2, bs, rfl, rfl⟩)
  · exact .inr (.inr h)

/-- FINISH in OPEN completes when the summed bytes have been written and the checksum fits (R56). -/
theorem execFinish_completes {bs : List Byte} (hp : s.phase = .OPEN) (hw : s.wp.toNat + 2 ≤ s.cfg.bufSize)
    (hr : Memory.readBytes (patchLength s) 2 (s.wp.toNat - 2) = some bs) :
    execFinish s = .next { s with buf := Memory.writeBytes (patchLength s) s.wp.toNat [(ck bs).1, (ck bs).2],
                                  cka := (ck bs).1, ckb := (ck bs).2, wp := s.wp + BitVec.ofNat 17 2,
                                  flen := s.wp + BitVec.ofNat 17 2, phase := .DONE } := by
  unfold execFinish
  rw [inPhase_legal hp (by decide)]
  simp only [frameChecksum, hr, Option.map_some]
  rw [append_eq (by simpa using hw)]
  rfl

/-- The length patch touches offsets 4 and 5 alone (R56). -/
theorem read_patchLength (a : Nat) (h : a ≠ 4 ∧ a ≠ 5) :
    Memory.read (patchLength s) a = Memory.read s.buf a := by
  unfold patchLength Memory.memWrite
  rw [Memory.read_writeBytes_outside]
  simp only [leBytes_length]
  omega

/-- The reason of a valid ABORT is its error code (R57). -/
theorem hostReason_some {b : Byte} {e : ErrCode} (h : hostReason b = some e) :
    1 ≤ b.toNat ∧ b.toNat ≤ 4 ∧ e ≠ .noError ∧ e ≠ .illegalCommand ∧ e ≠ .sequenceError ∧ e ≠ .bufferOverflow := by
  unfold hostReason at h
  split at h <;> simp_all <;> subst e <;> simp

/-- All ABORT can do (R57). -/
theorem execAbort_cases {b : Byte} (h : execAbort b s = .next t) :
    (∃ e, hostReason b = some e ∧ t = enterError e s) ∨
      (hostReason b = none ∧ ((s.phase = .ERR ∧ t = s) ∨ (s.phase ≠ .ERR ∧ t = enterError .illegalCommand s))) := by
  unfold execAbort at h
  split at h
  · cases h; exact .inl ⟨_, ‹_›, rfl⟩
  · exact .inr ⟨‹_›, illegalCommand_cases h⟩

end Cases

/-! ### Outside the legal phase -/

section Phases
variable {s : State}

theorem put_err {w k : Nat} {v : BitVec k} (h : s.phase = .ERR) : put w v s = .next s := inPhase_err h
theorem put_illegal {w k : Nat} {v : BitVec k} (h : s.phase ≠ .OPEN) (he : s.phase ≠ .ERR) :
    put w v s = .next (enterError .sequenceError s) := inPhase_illegal h he
theorem put_overflow {w k : Nat} {v : BitVec k} (h : s.phase = .OPEN) (hw : s.cfg.bufSize < s.wp.toNat + w + 2) :
    put w v s = .next (enterError .bufferOverflow s) := by
  unfold put
  rw [inPhase_legal h (by decide), reserving_overflow hw]

theorem execFinish_err (h : s.phase = .ERR) : execFinish s = .next s := inPhase_err h
theorem execFinish_illegal (h : s.phase ≠ .OPEN) (he : s.phase ≠ .ERR) :
    execFinish s = .next (enterError .sequenceError s) := inPhase_illegal h he

theorem execSbegin_err (h : s.phase = .ERR) : execSbegin s = .next s := inPhase_err h
theorem execSbegin_illegal (h : s.phase ≠ .OPEN) (he : s.phase ≠ .ERR) :
    execSbegin s = .next (enterError .sequenceError s) := inPhase_illegal h he

theorem execSchar_err {b : Byte} (h : s.phase = .ERR) : execSchar b s = .next s := inPhase_err h
theorem execSchar_illegal {b : Byte} (h : s.phase ≠ .STR) (he : s.phase ≠ .ERR) :
    execSchar b s = .next (enterError .sequenceError s) := inPhase_illegal h he

theorem execSend_err (h : s.phase = .ERR) : execSend s = .next s := inPhase_err h
theorem execSend_illegal (h : s.phase ≠ .STR) (he : s.phase ≠ .ERR) :
    execSend s = .next (enterError .sequenceError s) := inPhase_illegal h he

end Phases

/-! ### Completion of the string commands -/

section Strings
variable {s : State}

theorem execSbegin_completes (hp : s.phase = .OPEN) (hw : s.wp.toNat + 34 ≤ s.cfg.bufSize) :
    execSbegin s = .next { s with scnt := 0, phase := .STR } := by
  unfold execSbegin
  rw [inPhase_legal hp (by decide), reserving_fits (by simpa using hw)]

theorem execSchar_stores {b : Byte} (hp : s.phase = .STR) (hc : s.scnt.toNat < 32) (hw : s.wp.toNat < s.cfg.bufSize) :
    execSchar b s = .next { s with buf := Memory.writeBytes s.buf s.wp.toNat [b], wp := s.wp + BitVec.ofNat 17 1,
                                   scnt := s.scnt + 1 } := by
  unfold execSchar
  rw [inPhase_legal hp (by decide), if_pos hc, append_eq (by simp only [List.length_singleton]; omega)]
  rfl

theorem execSchar_drops {b : Byte} (hp : s.phase = .STR) (hc : 32 ≤ s.scnt.toNat) : execSchar b s = .next s := by
  unfold execSchar
  rw [inPhase_legal hp (by decide), if_neg (by simp only [STR_LEN]; omega)]

theorem execSend_completes (hp : s.phase = .STR) (hw : s.wp.toNat + (32 - s.scnt.toNat) ≤ s.cfg.bufSize) :
    execSend s = .next { s with buf := Memory.writeBytes s.buf s.wp.toNat (List.replicate (32 - s.scnt.toNat) PAD),
                                wp := s.wp + BitVec.ofNat 17 (32 - s.scnt.toNat), scnt := 0, phase := .OPEN } := by
  unfold execSend
  rw [inPhase_legal hp (by decide), append_eq (by simpa using hw), List.length_replicate]
  rfl

end Strings

/-! ### Sequences -/

/-- A joined sequence is its two parts, one after the other. -/
theorem issue_append (xs ys : List Instr) (s : State) : issue (xs ++ ys) s = andThen (issue xs s) (issue ys) := by
  induction xs generalizing s with
  | nil => rfl
  | cons x xs ih =>
    simp only [List.cons_append, issue]
    cases exec x s with
    | next u => exact ih u
    | fault f => rfl
    | refused r => rfl

/-! ### The step -/

theorem perform_ok {w : Command} {i : Instr} (s : State) (h : decode w = .ok i) : perform w s = exec i s := by
  simp [perform, h]

theorem perform_error {w : Command} {e : DecodeError} (s : State) (h : decode w = .error e) :
    perform w s = illegalCommand s := by
  simp [perform, h]

/-- All a step can do: wait, or perform the next presented command. -/
theorem step_cases {s t : State} (h : step s = .next t) :
    (s.pending = [] ∧ t = s) ∨ ∃ w ws, s.pending = w :: ws ∧ perform w { s with pending := ws } = .next t := by
  unfold step takeCommand at h
  cases hp : s.pending with
  | nil => simp only [hp] at h; cases h; exact .inl ⟨rfl, rfl⟩
  | cons w ws => simp only [hp] at h; exact .inr ⟨w, ws, rfl, h⟩

end Sys2Proof.Machine
end

