-- ==== Sys2Proof/Laws/PerInstr.lean ====
section
/-! SUPPORT. Statements for every command, one lemma per constructor: the opcode field of an encoded command is the
opcode of the map 30_encoding.md R43, and the operand bits its format does not use are 0 (R41). -/

namespace Sys2Proof.Laws.EncodeOpcode

/-- The encoded word carries the command's opcode in bits 71:64, and a 0 in every unused operand bit. -/
def Statement (i : Instr) : Prop :=
  commandOp (encode i) = i.opcode ∧ ∀ k, i.format.bits ≤ k → k < 64 → (encode i).getLsbD k = false

theorem of_data (op : Byte) (d : Data) (n : Nat) (h : ∀ k, n ≤ k → k < 64 → d.getLsbD k = false) :
    commandOp (op ++ d) = op ∧ ∀ k, n ≤ k → k < 64 → (op ++ d : Command).getLsbD k = false := by
  refine ⟨?_, fun k hn hk => ?_⟩
  · unfold commandOp
    apply BitVec.eq_of_getLsbD_eq
    intro j hj
    rw [BitVec.getLsbD_extractLsb', BitVec.getLsbD_append]
    simp [hj]
  · rw [BitVec.getLsbD_append]
    rw [if_pos hk]
    exact h k hn hk

theorem of_setWidth (op : Byte) {m : Nat} (b : BitVec m) :
    commandOp (op ++ b.setWidth 64) = op ∧
      ∀ k, m ≤ k → k < 64 → (op ++ b.setWidth 64 : Command).getLsbD k = false :=
  of_data op (b.setWidth 64) m fun k hm _ => by simp [BitVec.getLsbD_of_ge b k hm]

theorem of_zero (op : Byte) :
    commandOp (op ++ (0 : Data)) = op ∧ ∀ k, 0 ≤ k → k < 64 → (op ++ (0 : Data) : Command).getLsbD k = false :=
  of_data op 0 0 fun k _ _ => by simp

theorem of_full (op : Byte) (v : Data) :
    commandOp (op ++ v) = op ∧ ∀ k, 64 ≤ k → k < 64 → (op ++ v : Command).getLsbD k = false :=
  of_data op v 64 fun k h1 h2 => by omega

theorem start (b : Byte) : Statement (.start b) := of_setWidth _ b
theorem finish : Statement .finish := of_zero _
theorem abort (b : Byte) : Statement (.abort b) := of_setWidth _ b
theorem ckclr : Statement .ckclr := of_zero _
theorem ckbyte (b : Byte) : Statement (.ckbyte b) := of_setWidth _ b
theorem putu8 (b : Byte) : Statement (.putu8 b) := of_setWidth _ b
theorem putu16 (v : BitVec 16) : Statement (.putu16 v) := of_setWidth _ v
theorem putu32 (v : BitVec 32) : Statement (.putu32 v) := of_setWidth _ v
theorem putu64 (v : BitVec 64) : Statement (.putu64 v) := of_full _ v
theorem puti8 (b : Byte) : Statement (.puti8 b) := of_setWidth _ b
theorem puti16 (v : BitVec 16) : Statement (.puti16 v) := of_setWidth _ v
theorem puti32 (v : BitVec 32) : Statement (.puti32 v) := of_setWidth _ v
theorem putf32 (v : BitVec 32) : Statement (.putf32 v) := of_setWidth _ v
theorem putf64 (v : BitVec 64) : Statement (.putf64 v) := of_full _ v
theorem sbegin : Statement .sbegin := of_zero _
theorem schar (b : Byte) : Statement (.schar b) := of_setWidth _ b
theorem send : Statement .send := of_zero _

end Sys2Proof.Laws.EncodeOpcode
end

