-- ==== Sys2Proof/Laws/Encoding.lean ====
section
/-! SUPPORT. The fields of a command word (30_encoding.md R40 to R42). -/

namespace Sys2Proof

/-- The opcode of a composed word. -/
theorem commandOp_append (op : Byte) (d : Data) : commandOp ((op ++ d : BitVec (8 + 64)) : Command) = op :=
  (Laws.EncodeOpcode.of_full op d).1

/-- The operand of a composed word. -/
theorem operandBits_append (op : Byte) (d : Data) (k : Nat) (hk : k ≤ 64) :
    operandBits k ((op ++ d : BitVec (8 + 64)) : Command) = d.setWidth k := by
  unfold operandBits commandData
  apply BitVec.eq_of_getLsbD_eq
  intro j hj
  have hj' : j < 64 := by omega
  simp only [BitVec.getLsbD_extractLsb', BitVec.getLsbD_append, BitVec.getLsbD_setWidth]
  simp [hj, hj']

/-- The bits of an operand are the low bits of the word. -/
theorem getLsbD_operandBits (w : Command) (k j : Nat) (hk : k ≤ 64) :
    (operandBits k w).getLsbD j = (decide (j < k) && w.getLsbD j) := by
  unfold operandBits commandData
  simp only [BitVec.getLsbD_extractLsb']
  by_cases h : j < k
  · have h' : j < 64 := by omega
    simp [h, h']
  · simp [h]

end Sys2Proof
end

