-- ==== Sys2Proof/Tests/Slice0.lean ====
section
/-! SUPPORT. The model's own tests, with expected values from spec/95_test_vectors.md and the rules, and a witness for
the hypotheses of every statement. -/

namespace Sys2Proof.Tests

open Sys2Proof Sys2Proof.Machine Sys2Proof.Text

/-! ### Helpers -/

/-- The next state holds what `f` reads. -/
def Gives {α : Type} [DecidableEq α] (r : Result) (f : State → α) (x : α) : Bool :=
  match r with
  | .next t => decide (f t = x)
  | _ => false

/-- The state tuple of spec/95_test_vectors.md: phase (by its code), err, wp, scnt, flen, cka,
ckb. -/
def tuple (s : State) : List Nat :=
  [(phaseCode s.phase).toNat, (errCode s.err).toNat, s.wp.toNat, s.scnt.toNat, s.flen.toNat, s.cka.toNat, s.ckb.toNat]

/-- A frame with message id 8A in phase OPEN, with the given payload and `BUF_SIZE = 8 + cap`. -/
def opened (cap : Fin 65536) (payload : List Byte) : State :=
  { State.resetWith ⟨cap⟩ with phase := .OPEN, wp := BitVec.ofNat 17 (6 + payload.length),
                               buf := Memory.writeBytes [] 0 (header 0x8A ++ payload) }

/-- The same in phase STR, the last `n` payload bytes being characters. -/
def inString (cap : Fin 65536) (payload : List Byte) (n : BitVec 6) : State :=
  { opened cap payload with phase := .STR, scnt := n }

/-- The empty frame of R60 for message id 8A, in phase DONE. -/
def completed : State :=
  { State.reset with phase := .DONE, wp := 8, flen := 8, cka := 0x90, ckb := 0xB6,
                     buf := Memory.writeBytes [] 0 [0xB5, 0x62, 0x06, 0x8A, 0x00, 0x00, 0x90, 0xB6] }

/-- Phase ERR with a SequenceError, as after a field command before the first START. -/
def failed : State := enterError .sequenceError State.reset

/-- Bytes `a` to `a + n - 1` of the buffer. -/
def bytesAt (a n : Nat) (s : State) : Option (List Byte) := Memory.readBytes s.buf a n

/-! ### Well-formedness -/

theorem test_wf_abort_0_refused : (Instr.abort 0).wellFormed = false := by decide
theorem test_wf_abort_5_refused : (Instr.abort 5).wellFormed = false := by decide
theorem test_wf_abort_4 : (Instr.abort 4).wellFormed = true := by decide

/-! ### Decoding: words of 30_encoding.md R51 and 95_test_vectors.md -/

theorem test_decode_start : decodeTableWord 72 0x01000000000000008A = some (.start 0x8A) := by decide
theorem test_decode_finish : decodeTableWord 72 0x020000000000000000 = some .finish := by decide
theorem test_decode_abort : decodeTableWord 72 0x030000000000000003 = some (.abort 3) := by decide
theorem test_decode_ckclr : decodeTableWord 72 0x080000000000000000 = some .ckclr := by decide
theorem test_decode_ckbyte : decodeTableWord 72 0x09000000000000009C = some (.ckbyte 0x9C) := by decide
theorem test_decode_putu8 : decodeTableWord 72 0x10000000000000012C = some (.putu8 0x2C) := by decide
theorem test_decode_putu16 : decodeTableWord 72 0x110000000000012345 = some (.putu16 0x2345) := by decide
theorem test_decode_putu32 : decodeTableWord 72 0x120000001122334455 = some (.putu32 0x22334455) := by decide
theorem test_decode_putu64 : decodeTableWord 72 0x130102030405060708 = some (.putu64 0x0102030405060708) := by decide
theorem test_decode_puti8 : decodeTableWord 72 0x14FFFFFFFFFFFFFF80 = some (.puti8 0x80) := by decide
theorem test_decode_puti16 : decodeTableWord 72 0x15FFFFFFFFFFFFFFFE = some (.puti16 0xFFFE) := by decide
theorem test_decode_puti32 : decodeTableWord 72 0x16FFFFFFFFFFFFFF9C = some (.puti32 0xFFFFFF9C) := by decide
theorem test_decode_putf32 : decodeTableWord 72 0x1A00000000C0200000 = some (.putf32 0xC0200000) := by decide
theorem test_decode_putf64 : decodeTableWord 72 0x1B3FB999999999999A = some (.putf64 0x3FB999999999999A) := by decide
theorem test_decode_sbegin : decodeTableWord 72 0x200000000000000000 = some .sbegin := by decide
theorem test_decode_schar : decodeTableWord 72 0x210000000000000047 = some (.schar 0x47) := by decide
theorem test_decode_send : decodeTableWord 72 0x220000000000000000 = some .send := by decide
theorem test_decode_int64_illegal : decodeTableWord 72 0x170000000000000000 = none := by decide
theorem test_decode_zero_illegal : decodeTableWord 72 0 = none := by decide
theorem test_step_runs_fetch_word :
    Gives (step (State.reset.withFetchWord 72 0x01000000000000008A)) tuple [1, 0, 6, 0, 0, 0, 0] = true := by decide

/-! ### Single steps -/

theorem test_start : Gives (exec (.start 0x8A) State.reset) (bytesAt 0 6) (some [0xB5, 0x62, 0x06, 0x8A, 0, 0]) = true := by
  decide
theorem test_start_clears_error : Gives (exec (.start 1) completed) tuple [1, 0, 6, 0, 0, 0x90, 0xB6] = true := by
  decide
/-- Golden frame G1 (95_test_vectors.md 1.1). -/
theorem test_finish_golden :
    Gives (exec .finish (opened 120 [0x00, 0x01, 0x00, 0x00, 0x01, 0x00, 0x03, 0x20, 0x00])) (fun t => (tuple t, frameBytes t))
      ([3, 0, 17, 0, 17, 0xBE, 0x7F],
        some [0xB5, 0x62, 0x06, 0x8A, 0x09, 0x00, 0x00, 0x01, 0x00, 0x00, 0x01, 0x00, 0x03, 0x20, 0x00, 0xBE, 0x7F])
      = true := by decide
theorem test_finish_in_string : Gives (exec .finish (inString 120 [0x41] 1)) tuple [4, 9, 7, 1, 0, 0, 0] = true := by
  decide
theorem test_abort : Gives (exec (.abort 4) completed) tuple [4, 4, 8, 0, 0, 0x90, 0xB6] = true := by decide
theorem test_abort_reserved : Gives (exec (.abort 5) State.reset) tuple [4, 8, 0, 0, 0, 0, 0] = true := by decide
theorem test_ckclr : Gives (exec .ckclr completed) tuple [3, 0, 8, 0, 8, 0, 0] = true := by decide
theorem test_ckbyte_wraps : Gives (exec (.ckbyte 0x64) { State.reset with cka := 0xC8, ckb := 0x64 })
    (fun t => (t.cka.toNat, t.ckb.toNat)) (0x2C, 0x90) = true := by decide
theorem test_ckbyte_in_err : Gives (exec (.ckbyte 5) failed) tuple [4, 9, 0, 0, 0, 5, 5] = true := by decide
theorem test_putu8 : Gives (exec (.putu8 0x1A) (opened 120 [])) (bytesAt 6 1) (some [0x1A]) = true := by decide
theorem test_putu8_overflow : Gives (exec (.putu8 0) (opened 0 [])) tuple [4, 10, 6, 0, 0, 0, 0] = true := by decide
theorem test_putu16 : Gives (exec (.putu16 0x1234) (opened 120 [])) (bytesAt 6 2) (some [0x34, 0x12]) = true := by decide
theorem test_putu32 : Gives (exec (.putu32 0x20030001) (opened 120 [])) (bytesAt 6 4) (some [0x01, 0x00, 0x03, 0x20]) = true := by
  decide
theorem test_putu64 : Gives (exec (.putu64 0x0102030405060708) (opened 120 [])) (bytesAt 6 8)
    (some [0x08, 0x07, 0x06, 0x05, 0x04, 0x03, 0x02, 0x01]) = true := by decide
theorem test_puti8 : Gives (exec (.puti8 (-128)) (opened 120 [])) (bytesAt 6 1) (some [0x80]) = true := by decide
theorem test_puti16 : Gives (exec (.puti16 (-2)) (opened 120 [])) (bytesAt 6 2) (some [0xFE, 0xFF]) = true := by decide
theorem test_puti32 : Gives (exec (.puti32 (-100)) (opened 120 [])) (bytesAt 6 4) (some [0x9C, 0xFF, 0xFF, 0xFF]) = true := by
  decide
theorem test_putf32 : Gives (exec (.putf32 0xC0200000) (opened 120 [])) (bytesAt 6 4) (some [0x00, 0x00, 0x20, 0xC0]) = true := by
  decide
theorem test_putf64 : Gives (exec (.putf64 0x3FB999999999999A) (opened 120 [])) (bytesAt 6 8)
    (some [0x9A, 0x99, 0x99, 0x99, 0x99, 0x99, 0xB9, 0x3F]) = true := by decide
theorem test_sbegin_40 : Gives (exec .sbegin (opened 32 [])) tuple [2, 0, 6, 0, 0, 0, 0] = true := by decide
theorem test_sbegin_39 : Gives (exec .sbegin (opened 31 [])) tuple [4, 10, 6, 0, 0, 0, 0] = true := by decide
theorem test_schar : Gives (exec (.schar 0x42) (inString 120 [0x41] 1)) (fun t => (tuple t, bytesAt 6 2 t))
    ([2, 0, 8, 2, 0, 0, 0], some [0x41, 0x42]) = true := by decide
theorem test_schar_33rd : exec (.schar 0x36) (inString 120 (List.replicate 32 0x41) 32) =
    .next (inString 120 (List.replicate 32 0x41) 32) := rfl
/-- "BASE" (43_string_packer.md R93, R98). -/
theorem test_send : Gives (exec .send (inString 120 [0x42, 0x41, 0x53, 0x45] 4)) (fun t => (tuple t, bytesAt 6 32 t))
    ([1, 0, 38, 0, 0, 0, 0], some ([0x42, 0x41, 0x53, 0x45] ++ List.replicate 28 0x20)) = true := by decide
theorem test_illegal_beats_sequence : Gives (perform 0 State.reset) tuple [4, 8, 0, 0, 0, 0, 0] = true := by decide
theorem test_illegal_ignored_in_err : perform 0 failed = .next failed := rfl
/-- `ck` of FF repeated 256 times is (00, 80) (95_test_vectors.md 2.2), through R67's order example. -/
theorem test_ck_order : ck [1, 2, 3] = (0x06, 0x0A) ∧ ck [3, 2, 1] = (0x06, 0x0E) := by decide
theorem test_status_abort_2 : statusRead 0 (enterError .unknownCommand State.reset) = 0x24 := by decide
theorem test_status_bufsz : statusRead 6 State.reset = 128 := by decide
theorem test_bufread_unwritten : bufRead 0 State.reset = .refused .readNeverWritten := rfl
theorem test_bufread_beyond : bufRead 128 State.reset = .refused .readBeyondBuffer := rfl

/-! ### The assembler and the host layer -/

/-- `PUTI32 -100  # h` assembles to the word of R51. -/
theorem test_assemble_negative :
    (assemble (ascii ['P', 'U', 'T', 'I', '3', '2', ' ', '-', '1', '0', '0', ' ', '#', 'h'])).toOption =
      some (some 0x16FFFFFFFFFFFFFF9C) := by decide
theorem test_assemble_hex :
    (assemble (ascii ['S', 'T', 'A', 'R', 'T', ' ', '0', 'x', '8', 'A'])).toOption = some (some 0x01000000000000008A) := by
  decide
theorem test_assemble_operand_count : (assemble (ascii ['S', 'E', 'N', 'D', ' ', '1'])).toOption = none := by decide
theorem test_pseudo_empty : Pseudo.putempty.expand = emitDefault .fixedString32 := by decide

/-- A host environment that meets every constraint of the spec: the recovered tables (R113, R114) and the literals of
R49. -/
def demo : Env :=
  { isSpace := fun c => c = 0x20, readInt := literal, readF32 := fun _ => none, readF64 := fun _ => none,
    schemas := [(VALSET, ⟨0x8A, List.replicate 4 (.num .uint8)⟩), ([0x4E], ⟨0x01, [.fixedString32, .num .uint16]⟩)],
    items := [(TMODE_MODE, ⟨0x20030001, .num .uint8⟩), (TMODE_POS_TYPE, ⟨0x20030002, .num .uint8⟩),
              (TMODE_HEIGHT, ⟨0x4003000B, .num .int32⟩)] }

/-- `CFG-VALSET 0 1 0 0 CFG-TMODE-HEIGHT -100`, the text of golden frame G4. -/
def goldenText : Bytes :=
  ascii (['C', 'F', 'G', '-', 'V', 'A', 'L', 'S', 'E', 'T', ' ', '0', ' ', '1', ' ', '0', ' ', '0', ' '] ++
    ['C', 'F', 'G', '-', 'T', 'M', 'O', 'D', 'E', '-', 'H', 'E', 'I', 'G', 'H', 'T', ' ', '-', '1', '0', '0'])

/-- The commands of G4 are program P2 (95_test_vectors.md section 3). -/
theorem test_golden_commands : commandsOf demo (some goldenText) =
    [.start 0x8A, .putu8 0, .putu8 1, .putu8 0, .putu8 0, .putu32 0x4003000B, .puti32 (-100), .finish] := by decide

/-- `CFG-NOPE 1 2 3` (95_test_vectors.md 2.6). -/
def nopeText : Bytes := ascii ['C', 'F', 'G', '-', 'N', 'O', 'P', 'E', ' ', '1', ' ', '2', ' ', '3']

theorem test_nope_aborts : commandsOf demo (some nopeText) = [.abort 2] := by decide
/-- `a1`, `--5`, `0xZZ` have no numeric prefix; `12abc`, `+5`, `0X5` and `-0x5` are left open (R108). -/
theorem test_unparsable : [ascii ['a', '1'], ascii ['-', '-', '5'], ascii ['0', 'x', 'Z', 'Z'], ascii ['0', 'x']].all
    (fun tok => !numberStart tok) = true := by decide
theorem test_open_literals : [ascii ['1', '2', 'a', 'b', 'c'], ascii ['+', '5'], ascii ['0', 'X', '5'],
    ascii ['-', '0', 'x', '5']].all numberStart = true := by decide
theorem test_three_spaces : commandsOf demo (some [0x20, 0x20, 0x20]) = [.abort 2] := by decide
theorem test_empty_text : commandsOf demo (some []) = [.abort 1] := by decide

theorem digits_hex_of_upper (n : Nat) : ∀ (tok : Bytes) (m : Nat), digitsFrom 16 upperHexDigit m tok = some n →
    digitsFrom 16 hexDigit m tok = some n := by
  intro tok
  induction tok with
  | nil => intro m h; exact h
  | cons c cs ih =>
    intro m h
    simp only [digitsFrom] at h ⊢
    cases hd : upperHexDigit c with
    | none => simp [hd] at h
    | some d =>
      have hh : hexDigit c = some d := by
        unfold hexDigit
        split
        · exfalso
          unfold upperHexDigit decDigit at hd
          rw [if_neg (by omega), if_neg (by omega)] at hd
          cases hd
        · exact hd
      simp only [hd] at h
      simp only [hh]
      exact ih _ h

theorem decimalRun_first (n : Nat) (tok : Bytes) (h : digitRun 10 decDigit tok = some n) :
    ∃ c cs d, tok = c :: cs ∧ decDigit c = some d := by
  cases tok with
  | nil => cases h
  | cons c cs =>
    simp only [digitRun, digitsFrom] at h
    cases hd : decDigit c with
    | none => simp [hd] at h
    | some d => exact ⟨c, cs, d, rfl, hd⟩

theorem unsigned_of_decimal (n : Nat) (tok : Bytes) (h : digitRun 10 decDigit tok = some n) :
    unsignedLiteral tok = some n := by
  unfold unsignedLiteral
  split
  · simp [digitRun, digitsFrom, decDigit] at h
  · exact h

theorem unsigned_none (tok : Bytes) (h : digitsStart tok = false) : unsignedLiteral tok = none := by
  unfold unsignedLiteral
  split
  · rename_i c cs
    have hc : hexDigit c = none := by simpa [digitsStart] using h
    simp [digitRun, digitsFrom, hc]
  · cases tok with
    | nil => rfl
    | cons c cs =>
      cases hc : decDigit c with
      | none => simp [digitRun, digitsFrom, hc]
      | some d =>
        unfold digitsStart at h
        split at h
        · rename_i rest hr
          cases hr
          cases rest with
          | nil => rfl
          | cons e es => rename_i hx; exact absurd rfl (hx e es)
        · rename_i hr; cases hr; rfl
        · simp [hc] at h

/-- The environment meets the constraints of the spec. -/
theorem demo_lawful : demo.Lawful where
  space := by decide
  decimal := by
    intro tok n h hn
    obtain ⟨c, cs, d, rfl, hc⟩ := decimalRun_first _ _ h
    show literal _ = _
    unfold literal
    split
    · rename_i h2; cases h2; simp [decDigit] at hc
    · simp [unsigned_of_decimal n _ h] <;> omega
  negative := by
    intro tok n h hn
    have neg : demo.readInt (0x2D :: tok) = literal (0x2D :: tok) := rfl
    rw [neg]
    simp [literal, unsigned_of_decimal n _ h] <;> omega
  hexadecimal := by
    intro tok n h hn
    cases tok with
    | nil => cases h
    | cons c cs =>
      have h16 : unsignedLiteral (0x30 :: 0x78 :: c :: cs) = some n := digits_hex_of_upper n (c :: cs) 0 h
      have hex : demo.readInt (0x30 :: 0x78 :: c :: cs) = literal (0x30 :: 0x78 :: c :: cs) := rfl
      rw [hex]
      unfold literal
      split
      · rename_i h2; cases h2
      · rw [h16]; simp <;> omega
  hexExample := by decide
  unparsable := by
    intro tok h
    have none_of : literal tok = none := by
      unfold literal
      split
      · rw [unsigned_none _ h]; rfl
      · rename_i hneg
        have : digitsStart tok = false := by
          unfold numberStart at h
          split at h
          · exact absurd rfl (hneg _)
          · rfl
          · exact h
        rw [unsigned_none _ this]; rfl
    have : parseInt demo tok = (literal tok).getD 0 := rfl
    rw [this, none_of]; rfl
  schemaNames := by decide
  itemNames := by decide
  itemKeys := by decide
  valsetPrefix := by intro S h; cases h; rfl

theorem demo_recovered : demo.Recovered where
  valset := by decide
  mode := ⟨.uint8, .inl rfl, by decide⟩
  posType := ⟨.uint8, .inl rfl, by decide⟩
  height := by decide

/-! ### Witnesses: states and operands that meet the hypotheses of each statement -/

theorem inv_reset : Inv State.reset := by
  constructor <;> simp [State.reset, Memory.wf]

theorem inv_failed : Inv failed := by
  constructor <;> simp [failed, State.reset, Memory.wf]

/-- An open frame whose buffer has room for exactly two more payload bytes. -/
theorem inv_opened : Inv (opened 3 [7]) where
  wf := by decide
  inBuffer := by decide
  written := by decide
  wp_le := by decide
  scnt_le := by decide
  idle := by decide
  opened := fun _ => ⟨by decide, by decide, by decide, by decide, by decide, 0x8A, by decide⟩
  str := by intro h; cases h
  done := by intro h; cases h
  error := by decide
  error_flen := by intro h; cases h

theorem inv_completed : Inv completed where
  wf := by decide
  inBuffer := by decide
  written := by decide
  wp_le := by decide
  scnt_le := by decide
  idle := by intro h; cases h
  opened := by intro h; cases h
  str := by intro h; cases h
  done := fun _ => ⟨by decide, by decide, by decide, by decide, ⟨0x8A, by decide⟩, by decide,
    [0x06, 0x8A, 0x00, 0x00], by decide, by decide, by decide⟩
  error := by decide
  error_flen := by intro h; cases h

theorem witness_StepKeepsInvariant : Inv { State.reset with pending := [0x01000000000000008A] } ∧
    ∃ t, step { State.reset with pending := [0x01000000000000008A] } = .next t :=
  ⟨{ inv_reset with }, _, rfl⟩

theorem witness_PortsKeepInvariant : Inv completed ∧
    (∃ r t, serve (.command 0x020000000000000000) completed = .next (r, t)) ∧
    (∃ r t, serve (.statusRead 7) completed = .next (r, t)) ∧ (∃ r t, serve (.bufRead 7) completed = .next (r, t)) ∧
    ∃ r t, serve .reset completed = .next (r, t) :=
  ⟨inv_completed, ⟨_, _, rfl⟩, ⟨_, _, rfl⟩, ⟨_, _, rfl⟩, ⟨_, _, rfl⟩⟩

theorem witness_StepAlwaysAnswers : Inv State.reset ∧ Inv (opened 3 [7]) ∧ Inv completed ∧ Inv failed :=
  ⟨inv_reset, inv_opened, inv_completed, inv_failed⟩

theorem witness_ResetEffect : ∃ p : PinsIn, p.rst = true ∧ p.cmdValid = true :=
  ⟨⟨true, true, 0x01000000000000008A, 0, 0⟩, rfl, rfl⟩

theorem witness_EncodeDecode : decode 0x120000001122334455 = .ok (.putu32 0x22334455) := rfl

theorem witness_IllegalCommands : (∃ e, decode 0x230000000000000000 = .error e) ∧ failed.phase = .ERR ∧
    completed.phase ≠ .ERR ∧ (0 : Byte).toNat = 0 ∧ 4 < (5 : Byte).toNat :=
  ⟨⟨_, rfl⟩, rfl, by decide, rfl, by decide⟩

theorem witness_HighBitsIgnored : decode 0x1600000000FFFFFF9C = .ok (.puti32 0xFFFFFF9C) ∧
    commandOp 0x16FFFFFFFFFFFFFF9C = commandOp 0x1600000000FFFFFF9C ∧
    ∀ k, k < (Instr.puti32 0xFFFFFF9C).format.bits →
      BitVec.getLsbD (0x16FFFFFFFFFFFFFF9C : Command) k = BitVec.getLsbD (0x1600000000FFFFFF9C : Command) k :=
  ⟨rfl, by decide, by decide⟩

theorem witness_StepRunsDecoded :
    { State.reset with pending := [0x020000000000000000] }.pending = 0x020000000000000000 :: [] ∧
    decode 0x020000000000000000 = .ok .finish := ⟨rfl, rfl⟩

theorem witness_StepWaits : State.reset.pending = [] := rfl

theorem witness_StepTakesOne : ∃ t, step { completed with pending := [0, 0] } = .next t := ⟨_, rfl⟩

theorem witness_PhaseTable :
    (alwaysLegal (.abort 4) = true ∧ ∃ t, exec (.abort 4) completed = .next t) ∧
    (legalPhase (.putu16 1) = some .OPEN ∧ (opened 3 [7]).phase = .OPEN ∧ ∃ t, exec (.putu16 1) (opened 3 [7]) = .next t) ∧
    (∃ t, exec (.putu16 1) (opened 2 [7]) = .next t ∧ t.err = .bufferOverflow) ∧
    (legalPhase .send = some .STR ∧ completed.phase ≠ .STR ∧ completed.phase ≠ .ERR) ∧
    (alwaysLegal (.abort 0) = false ∧ failed.phase = .ERR) ∧
    (∃ e, decode 0 = .error e) ∧ decode 0x030000000000000005 = .ok (.abort 5) ∧ alwaysLegal (.abort 5) = false :=
  ⟨⟨rfl, _, rfl⟩, ⟨rfl, rfl, _, rfl⟩, ⟨_, rfl, rfl⟩, ⟨rfl, by decide, by decide⟩, ⟨rfl, rfl⟩, ⟨_, rfl⟩, rfl, rfl⟩

/-- The last clause at the boundary: a full buffer, one byte too many. -/
theorem witness_FaultPriority :
    (∀ i, decode 0x100000000000000000 = .ok i → alwaysLegal i = false) ∧
    decode 0x100000000000000000 = .ok (.putu8 0) ∧ legalPhase (.putu8 0) = some .OPEN ∧
    completed.phase ≠ .OPEN ∧ completed.phase ≠ .ERR ∧ (opened 1 [7]).phase = .OPEN ∧ 0 < roomNeeded (.putu8 0) ∧
    (opened 1 [7]).cfg.bufSize + 1 = (opened 1 [7]).wp.toNat + roomNeeded (.putu8 0) + 2 ∧
    (∀ i p, decode 0 = .ok i → legalPhase i ≠ some p) :=
  ⟨fun i h => (by cases h; rfl), rfl, rfl, by decide, by decide, rfl, by decide, by decide, fun i p h => (by cases h)⟩

theorem witness_FinishEffect : (opened 1 [7]).phase = .OPEN ∧ 6 ≤ (opened 1 [7]).wp.toNat ∧
    (opened 1 [7]).wp.toNat + 2 = (opened 1 [7]).cfg.bufSize ∧
    (∀ a, 2 ≤ a → a < (opened 1 [7]).wp.toNat → (Memory.read (opened 1 [7]).buf a).isSome) ∧
    completed.phase = .DONE ∧ failed.phase = .ERR :=
  ⟨rfl, by decide, by decide, fun a _ ha => written a ha, rfl, rfl⟩
where
  written : ∀ a, a < (opened 1 [7]).wp.toNat → (Memory.read (opened 1 [7]).buf a).isSome := by decide

theorem witness_AbortEffect : (1 ≤ (4 : Byte).toNat ∧ (4 : Byte).toNat ≤ 4) ∧ 4 < (5 : Byte).toNat ∧ (0 : Byte).toNat = 0 ∧
    failed.phase = .ERR ∧ completed.phase ≠ .ERR := by decide

/-- Fields that fill the buffer exactly: 34 payload bytes of 34. -/
theorem witness_CompletedFrame :
    8 + ([Field.num .int16 0xFFFE, Field.string [0x41]].map Field.width).sum = (State.resetWith ⟨34⟩).cfg.bufSize := by decide

theorem witness_FrameDeterminism : State.reset.cfg = completed.cfg ∧
    (∃ t, issue (.start 1 :: [.putu8 7, .finish]) State.reset = .next t) ∧
    ∃ t, issue (.start 1 :: [.putu8 7, .finish]) completed = .next t := ⟨rfl, ⟨_, rfl⟩, ⟨_, rfl⟩⟩

theorem witness_AccumulatorWriters : ∃ t, perform 0x090000000000000005 failed = .next t ∧ t.cka ≠ failed.cka :=
  ⟨_, rfl, by decide⟩

/-- For the PUT statements: a field that fits exactly, one that misses by a byte, and every other phase. -/
theorem witness_UnsignedPuts : (opened 3 [7]).phase = .OPEN ∧ (opened 3 [7]).wp.toNat + 2 + 2 = (opened 3 [7]).cfg.bufSize ∧
    (opened 2 [7]).cfg.bufSize + 1 = (opened 2 [7]).wp.toNat + 2 + 2 ∧ State.reset.phase = .IDLE ∧
    (inString 120 [0x41] 1).phase = .STR ∧ completed.phase = .DONE ∧ failed.phase = .ERR := by decide

theorem witness_SignedPuts : (opened 4 []).phase = .OPEN ∧ (opened 4 []).wp.toNat + 4 + 2 = (opened 4 []).cfg.bufSize ∧
    (opened 3 []).cfg.bufSize + 1 = (opened 3 []).wp.toNat + 4 + 2 := by decide

theorem witness_FloatPuts : (opened 8 []).phase = .OPEN ∧ (opened 8 []).wp.toNat + 8 + 2 = (opened 8 []).cfg.bufSize ∧
    (opened 7 []).cfg.bufSize + 1 = (opened 7 []).wp.toNat + 8 + 2 := by decide

theorem witness_FieldReadsBack : (opened 8 []).phase = .OPEN ∧
    (opened 8 []).wp.toNat + NumType.float64.width + 2 = (opened 8 []).cfg.bufSize := by decide

theorem witness_PutSplits : (opened 8 []).phase = .OPEN ∧ (opened 8 []).wp.toNat + 10 = (opened 8 []).cfg.bufSize := by decide

theorem witness_SbeginEffect : (opened 32 []).phase = .OPEN ∧ (opened 32 []).wp.toNat + 32 + 2 = (opened 32 []).cfg.bufSize ∧
    (opened 31 []).cfg.bufSize + 1 = (opened 31 []).wp.toNat + 32 + 2 ∧ completed.phase = .DONE ∧ failed.phase = .ERR := by
  decide

theorem witness_ScharEffect : (inString 31 (List.replicate 32 0x41) 31).phase = .STR ∧
    (inString 31 (List.replicate 32 0x41) 31).scnt.toNat = 31 ∧
    (inString 31 (List.replicate 32 0x41) 31).wp.toNat + 1 = (inString 31 (List.replicate 32 0x41) 31).cfg.bufSize ∧
    (inString 32 (List.replicate 32 0x41) 32).scnt.toNat = 32 ∧ completed.phase = .DONE ∧ failed.phase = .ERR := by decide

theorem witness_SendEffect : (inString 30 [] 0).phase = .STR ∧
    (inString 30 [] 0).wp.toNat + (32 - (inString 30 [] 0).scnt.toNat) = (inString 30 [] 0).cfg.bufSize ∧
    completed.phase = .DONE ∧ failed.phase = .ERR := by decide

theorem witness_StringFieldLaw : (opened 32 []).phase = .OPEN ∧ (opened 32 []).wp.toNat + 34 = (opened 32 []).cfg.bufSize ∧
    (opened 32 []).scnt = 0 ∧
    (∀ c ∈ [Instr.schar 0x41, .ckbyte 1, .ckclr], c = .ckclr ∨ (∃ b, c = .ckbyte b) ∨ ∃ b, c = .schar b) ∧
    ∀ c ∈ [Instr.schar 0x41], ∃ b, c = .schar b :=
  ⟨by decide, by decide, by decide, by simp, by simp⟩

theorem witness_ErrorTransition :
    (∃ t, perform 0x100000000000000000 completed = .next t ∧ t.phase = .ERR ∧ completed.phase ≠ .ERR) ∧
    ∃ t, perform 0x030000000000000002 failed = .next t ∧ t.phase = .ERR ∧ t.err ≠ failed.err :=
  ⟨⟨_, rfl, rfl, by decide⟩, ⟨_, rfl, rfl, by decide⟩⟩

theorem witness_NoNesting : failed.phase = .ERR ∧ (∃ e, decode 0 = .error e) ∧
    (decode 0x020000000000000000 = .ok .finish ∧ alwaysLegal .finish = false) ∧
    ∃ t, perform 0x030000000000000002 failed = .next t ∧ t.err ≠ failed.err :=
  ⟨rfl, ⟨_, rfl⟩, ⟨rfl, rfl⟩, ⟨_, rfl, by decide⟩⟩

theorem witness_LeavingError : failed.phase = .ERR ∧
    ∃ t, perform 0x010000000000000002 failed = .next t ∧ t.phase ≠ .ERR := ⟨rfl, _, rfl, by decide⟩

theorem witness_IdleOnlyByReset : ∃ t, perform 0x090000000000000005 State.reset = .next t ∧ t.phase = .IDLE :=
  ⟨_, rfl, rfl⟩

theorem witness_ErrorIsSticky : failed.phase = .ERR ∧
    ∀ w ∈ ([0, 0x020000000000000000, 0x090000000000000005] : List Command), (∃ e, decode w = .error e) ∨
      ∃ i, decode w = .ok i ∧ (alwaysLegal i = false ∨ i = .ckclr ∨ ∃ b, i = .ckbyte b) := by
  refine ⟨rfl, fun w hw => ?_⟩
  simp only [List.mem_cons, List.not_mem_nil, or_false] at hw
  rcases hw with rfl | rfl | rfl
  · exact .inl ⟨_, rfl⟩
  · exact .inr ⟨.finish, rfl, .inl rfl⟩
  · exact .inr ⟨.ckbyte 5, rfl, .inr (.inr ⟨5, rfl⟩)⟩

theorem witness_WriteDiscipline : Inv (opened 3 [7]) ∧
    (∃ t, perform 0x020000000000000000 (opened 3 [7]) = .next t) ∧
    (∀ b, decode 0x020000000000000000 ≠ .ok (.start b)) ∧
    ∃ t, perform 0x110000000000001234 (opened 3 [7]) = .next t :=
  ⟨inv_opened, ⟨_, rfl⟩, fun b h => (by cases h), ⟨_, rfl⟩⟩

theorem witness_ResultLength : Inv (opened 3 [7]) ∧
    ∃ t, perform 0x020000000000000000 (opened 3 [7]) = .next t ∧ t.flen ≠ (opened 3 [7]).flen ∧ statusRead 4 t ≠ 0 :=
  ⟨inv_opened, _, rfl, by decide, by decide⟩

theorem witness_BufferRead : 127 < State.reset.cfg.bufSize ∧ Memory.read State.reset.buf 127 = none ∧
    State.reset.cfg.bufSize ≤ 128 ∧ 7 < completed.cfg.bufSize ∧ Memory.read completed.buf 7 = some 0xB6 ∧
    Inv completed ∧ completed.phase = .DONE ∧ 7 < completed.flen.toNat :=
  ⟨by decide, by decide, by decide, by decide, by decide, inv_completed, rfl, by decide⟩

theorem witness_InvalidInput : (none : Option Bytes) = none ∨ (none : Option Bytes) = some [] := .inl rfl

/-- No token; a token without "CFG-"; a token that names no schema. -/
theorem witness_UnknownCommand : ([0x20] : Bytes) ≠ [] ∧ tokenize demo [0x20] = [] ∧
    (tokenize demo [0x63] = [0x63] :: [] ∧ ∀ name : Bytes, ([0x63] : Bytes) ≠ [0x43, 0x46, 0x47, 0x2D] ++ name) ∧
    tokenize demo nopeText = ([0x43, 0x46, 0x47, 0x2D] ++ [0x4E, 0x4F, 0x50, 0x45]) :: [[0x31], [0x32], [0x33]] ∧
    ∀ e ∈ demo.schemas, e.1 ≠ [0x4E, 0x4F, 0x50, 0x45] :=
  ⟨by decide, by decide, ⟨by decide, fun name h => (by cases h)⟩, by decide, by decide⟩

/-- A run that ends the text is one token too. -/
theorem witness_Tokenizer : demo.isSpace 0x20 = true ∧ (∀ c ∈ ([0x41, 0x42] : Bytes), demo.isSpace c = false) ∧
    ([0x41, 0x42] : Bytes) ≠ [] := by decide

/-- A VALSET text with 6 tokens, and one whose key token lacks "CFG-". -/
theorem witness_ValsetFailures :
    tokenize demo (ascii ['C', 'F', 'G', '-', 'V', 'A', 'L', 'S', 'E', 'T', ' ', '0', ' ', '1', ' ', '0', ' ', '0', ' ', 'K']) =
      ([0x43, 0x46, 0x47, 0x2D] ++ VALSET) :: [[0x30], [0x31], [0x30], [0x30], [0x4B]] ∧
    tokenize demo (ascii ['C', 'F', 'G', '-', 'V', 'A', 'L', 'S', 'E', 'T', ' ', '0', ' ', '1', ' ', '0', ' ', '0', ' ', 'K', ' ', '0']) =
      ([0x43, 0x46, 0x47, 0x2D] ++ VALSET) :: [[0x30], [0x31], [0x30], [0x30], [0x4B], [0x30]] ∧
    lookup demo.schemas VALSET = some ⟨0x8A, List.replicate 4 (.num .uint8)⟩ ∧
    ∀ name : Bytes, ([0x4B] : Bytes) ≠ [0x43, 0x46, 0x47, 0x2D] ++ name :=
  ⟨by decide, by decide, by decide, fun name h => (by cases h)⟩

/-- Golden text G4 on a buffer of exactly its 20 bytes. -/
theorem witness_ValsetFrame :
    (⟨0x8A, List.replicate 4 (.num .uint8)⟩ : Schema).fields = List.replicate 4 (.num .uint8) ∧ lookup demo.schemas VALSET = some ⟨0x8A, List.replicate 4 (.num .uint8)⟩ ∧
    lookup demo.items TMODE_HEIGHT = some ⟨0x4003000B, .num .int32⟩ ∧
    tokenize demo goldenText = [[0x43, 0x46, 0x47, 0x2D] ++ VALSET, [0x30], [0x31], [0x30], [0x30],
      [0x43, 0x46, 0x47, 0x2D] ++ TMODE_HEIGHT, [0x2D, 0x31, 0x30, 0x30]] ∧
    16 + (FieldType.num .int32).width = (State.resetWith ⟨12⟩).cfg.bufSize :=
  ⟨rfl, by decide, by decide, by decide, by decide⟩

/-- `CFG-N` without arguments: a string and a UInt16 field by default, on a buffer of exactly 42 bytes. -/
theorem witness_OrdinaryCallLength :
    tokenize demo (ascii ['C', 'F', 'G', '-', 'N']) = ([0x43, 0x46, 0x47, 0x2D] ++ [0x4E]) :: [] ∧ ([0x4E] : Bytes) ≠ VALSET ∧
    lookup demo.schemas [0x4E] = some ⟨0x01, [.fixedString32, .num .uint16]⟩ ∧
    8 + ([FieldType.fixedString32, .num .uint16].map FieldType.width).sum = (State.resetWith ⟨34⟩).cfg.bufSize := by decide

theorem witness_WellBehavedHost : Inv State.reset := inv_reset

theorem witness_CallDeterminism : State.reset.cfg = completed.cfg ∧
    (∃ a t, encodeCall demo (some nopeText) State.reset = .next (a, t)) ∧
    ∃ a t, encodeCall demo (some nopeText) completed = .next (a, t) := ⟨rfl, ⟨_, _, rfl⟩, ⟨_, _, rfl⟩⟩

theorem witness_PendingInOrder :
    { State.reset with pending := [0x01000000000000008A, 0x020000000000000000] }.pending =
      [0x01000000000000008A, 0x020000000000000000] ∧
    ∃ t, performAll [0x01000000000000008A, 0x020000000000000000] State.reset = .next t := ⟨rfl, _, rfl⟩

/-- 2^64 - 1 in both bases, and the example of R108 (d). -/
theorem witness_IntegerLiterals : demo.Lawful ∧ Digits64 10 [1, 8, 4, 4, 6, 7, 4, 4, 0, 7, 3, 7, 0, 9, 5, 5, 1, 6, 1, 5] ∧
    Digits64 16 (List.replicate 16 15) ∧ Digits64 10 [2, 6] ∧ Digits64 16 [1, 10] ∧
    digitsValue 10 [2, 6] = digitsValue 16 [1, 10] ∧ digitsText 0x41 [1, 10] = [0x31, 0x41] ∧
    (∀ c ∈ ([0x61, 0x2F, 0x3A] : Bytes), c.toNat < 0x30 ∨ 0x39 < c.toNat) ∧ (0x2F : Byte) ≠ 0x2B ∧ (0x2F : Byte) ≠ 0x2D ∧
    ∀ c ∈ ([0x5A, 0x2F, 0x3A, 0x40, 0x47, 0x60, 0x67] : Bytes), ∀ d, d < 16 →
      [c] ≠ digitsText 0x41 [d] ∧ [c] ≠ digitsText 0x61 [d] :=
  ⟨demo_lawful, ⟨by decide, by decide, by decide⟩, ⟨by decide, by decide, by decide⟩, ⟨by decide, by decide, by decide⟩,
    ⟨by decide, by decide, by decide⟩, by decide, by decide, by decide, by decide, by decide, by decide⟩

theorem witness_AssembledDecodes : assembleWords [ascii ['S', 'E', 'N', 'D']] = .ok (some 0x220000000000000000) ∧
    assembleWords [ascii ['A', 'B', 'O', 'R', 'T'], ascii ['4']] = .ok (some 0x030000000000000004) ∧
    literal (ascii ['4']) = some 4 ∧ literal (ascii ['x']) = none ∧
    assembleWords [ascii ['s', 'e', 'n', 'd']] = .error .unknownMnemonic ∧ Digits64 10 [1, 0, 0] ∧
    Digits64 16 (List.replicate 16 15) :=
  ⟨rfl, rfl, by decide, by decide, rfl, ⟨by decide, by decide, by decide⟩, ⟨by decide, by decide, by decide⟩⟩

/-- The parts of ` SEND <tab># x`, with a gap and without. -/
theorem witness_AssembledLine : IsAsmBlank [0x20] ∧ IsAsmWord (ascii ['S', 'E', 'N', 'D']) ∧ IsAsmBlank [0x09] ∧
    ([0x09] : Bytes) ≠ [] ∧ ∃ note, ([0x23, 0x78] : Bytes) = 0x23 :: note :=
  ⟨by unfold IsAsmBlank; decide, ⟨by decide, by decide⟩, by unfold IsAsmBlank; decide, by decide, _, rfl⟩

end Sys2Proof.Tests
end

section
/-! PROOFS. The family of 10_state.md: the invariant R28 under reset, a step and every operation of the host, the
writers of the accumulators (R16), and the status registers (R24, R25). -/

namespace Sys2Proof.Machine

/-! ### A field reads back -/

/-- `MemRead` of what `MemWrite` wrote is the word's low bytes (00_scope.md R13). -/
theorem Memory.memRead_memWrite (m : Memory) (a n : Nat) {k : Nat} (v : BitVec k) :
    Memory.memRead (Memory.memWrite m a n v) a n = some (v.setWidth (8 * n)) := by
  have hread : Memory.readBytes (Memory.memWrite m a n v) a n = some (leBytes n v) := by
    simpa [Memory.memWrite] using Memory.readBytes_writeBytes m a (leBytes n v)
  have hvalue : BitVec.ofNat (8 * n) (leValue (leBytes n v)) = v.setWidth (8 * n) :=
    BitVec.eq_of_toNat_eq (by simp [leValue_leBytes, Nat.pow_mul])
  simp [Memory.memRead, hread, hvalue]

/-- `MemRead` depends on its bytes alone. -/
theorem Memory.memRead_congr (m n : Memory) (a k : Nat)
    (h : ∀ x, a ≤ x → x < a + k → Memory.read m x = Memory.read n x) :
    Memory.memRead m a k = Memory.memRead n a k := by
  simp only [Memory.memRead, Memory.readBytes_congr m n a k h]

/-! ### The buffer's part of the invariant -/

/-- What R28 asks of a buffer of `n` bytes whose bytes below `w` have been written, in every phase. -/
structure Filled (m : Memory) (n w : Nat) : Prop where
  wf : Memory.wf m
  inBuffer : ∀ c ∈ m, c.1 < n
  written : ∀ a, a < w → (Memory.read m a).isSome

theorem Inv.filled {s : State} (h : Inv s) : Filled s.buf s.cfg.bufSize s.wp.toNat :=
  ⟨h.wf, h.inBuffer, h.written⟩

/-- A write inside the buffer keeps it filled up to the old limit and over the bytes written. -/
theorem Filled.writeBytes {m : Memory} {n w a w' : Nat} {bs : List Byte} (h : Filled m n w)
    (hfit : a + bs.length ≤ n) (hlimit : ∀ x, x < w' → x < w ∨ (a ≤ x ∧ x < a + bs.length)) :
    Filled (Memory.writeBytes m a bs) n w' where
  wf := Memory.writeBytes_wf bs m a h.wf
  inBuffer := Memory.writeBytes_bound bs m a n h.inBuffer hfit
  written x hx := by
    rw [Memory.read_writeBytes]
    by_cases hin : a ≤ x ∧ x < a + bs.length
    · simpa [hin] using (show x - a < bs.length by omega)
    · rw [if_neg hin]
      exact h.written x ((hlimit x hx).resolve_right hin)

/-- Appending at the limit moves the limit past the bytes appended. -/
theorem Filled.append {m : Memory} {n w : Nat} {bs : List Byte} (h : Filled m n w) (hfit : w + bs.length ≤ n) :
    Filled (Memory.writeBytes m w bs) n (w + bs.length) :=
  h.writeBytes hfit fun x hx => by omega

/-- FINISH's length patch keeps a started frame's buffer filled (40_frame_control.md R56). -/
theorem Filled.patchLength {s : State} {n : Nat} (h : Filled s.buf n s.wp.toNat) (hn : 6 ≤ n) :
    Filled (patchLength s) n s.wp.toNat :=
  h.writeBytes (by simpa using hn) fun _ hx => .inl hx

/-! ### The header and the frame -/

/-- The header lies in the first four bytes. -/
theorem HasHeader.congr {s t : State} (h : HasHeader s)
    (hread : ∀ a, a < 4 → Memory.read t.buf a = Memory.read s.buf a) : HasHeader t := by
  obtain ⟨id, hid⟩ := h
  exact ⟨id, by rw [Memory.readBytes_congr t.buf s.buf 0 4 fun a _ ha => hread a (by omega), hid]⟩

/-- START writes the header (R55). -/
theorem hasHeader_of_start {t : State} (m : Memory) (b : Byte) (h : t.buf = Memory.writeBytes m 0 (header b)) :
    HasHeader t := by
  refine ⟨b, (Memory.readBytes_eq_some ..).2 ⟨rfl, fun k hk => ?_⟩⟩
  rw [h, Memory.read_writeBytes_at _ _ _ _ (show k < 6 by omega)]
  exact (List.getElem?_take_of_lt (l := header b) hk).symm

/-- A write from offset 4 on keeps the header. -/
theorem HasHeader.writeBytes {s t : State} {a : Nat} {bs : List Byte} (h : HasHeader s) (ha : 4 ≤ a)
    (hbuf : t.buf = Memory.writeBytes s.buf a bs) : HasHeader t :=
  h.congr fun x hx => by rw [hbuf, Memory.read_writeBytes_outside _ _ _ _ (.inl (by omega))]

/-- The length patch and the two checksum bytes make a well-formed frame of a started one (R56, 20_memory.md R34). -/
theorem hasFrame_of_finish {s t : State} {bs : List Byte} (hhead : HasHeader s) (h6 : 6 ≤ s.wp.toNat)
    (hsum : Memory.readBytes (patchLength s) 2 (s.wp.toNat - 2) = some bs)
    (hbuf : t.buf = Memory.writeBytes (patchLength s) s.wp.toNat [(ck bs).1, (ck bs).2])
    (hflen : t.flen.toNat = s.wp.toNat + 2) : HasFrame t := by
  have hbelow : ∀ a, a < s.wp.toNat → Memory.read t.buf a = Memory.read (patchLength s) a := fun a ha => by
    rw [hbuf, Memory.read_writeBytes_outside _ _ _ _ (.inl ha)]
  have hsums : ∀ k, k < 2 → Memory.read t.buf (s.wp.toNat + k) = [(ck bs).1, (ck bs).2][k]? := fun k hk => by
    rw [hbuf, Memory.read_writeBytes_at _ _ _ _ hk]
  unfold HasFrame
  rw [hflen]
  refine ⟨?header, ?length, bs, ?summed, ?sumA, ?sumB⟩
  case header => exact hhead.congr fun a ha => by rw [hbelow a (by omega), read_patchLength a (by omega)]
  case length =>
    calc Memory.memRead t.buf 4 2
      _ = Memory.memRead (patchLength s) 4 2 := Memory.memRead_congr _ _ 4 2 fun x _ hx => hbelow x (by omega)
      _ = some (BitVec.ofNat 16 (s.wp.toNat - 6)) := by
        rw [patchLength, Memory.memRead_memWrite, BitVec.setWidth_eq]
      _ = some (BitVec.ofNat 16 (s.wp.toNat + 2 - 8)) := by rw [show s.wp.toNat + 2 - 8 = s.wp.toNat - 6 by omega]
  case summed =>
    rw [show s.wp.toNat + 2 - 4 = s.wp.toNat - 2 by omega, ← hsum]
    exact Memory.readBytes_congr _ _ _ _ fun x _ hx => hbelow x (by omega)
  case sumA => simpa using hsums 0 (by decide)
  case sumB => simpa using hsums 1 (by decide)

/-! ### The invariant, phase by phase -/

/-- What R28 asks in phase OPEN is enough for the invariant. -/
theorem inv_of_open {t : State} (hp : t.phase = .OPEN) (hf : Filled t.buf t.cfg.bufSize t.wp.toNat)
    (h6 : 6 ≤ t.wp.toNat) (hroom : t.wp.toNat + 2 ≤ t.cfg.bufSize) (hscnt : t.scnt = 0) (hflen : t.flen = 0)
    (herr : t.err = .noError) (hhead : HasHeader t) : Inv t :=
  { hf with
    wp_le := by omega
    scnt_le := by simp [hscnt]
    idle := by simp [hp]
    opened := fun _ => ⟨h6, hroom, hscnt, hflen, herr, hhead⟩
    str := by simp [hp]
    done := by simp [hp]
    error := by simp [hp, herr]
    error_flen := by simp [hp] }

/-- What R28 asks in phase STR is enough for the invariant. -/
theorem inv_of_str {t : State} (hp : t.phase = .STR) (hf : Filled t.buf t.cfg.bufSize t.wp.toNat)
    (hscnt : t.scnt.toNat ≤ 32) (h6 : 6 + t.scnt.toNat ≤ t.wp.toNat)
    (hroom : t.wp.toNat + 34 ≤ t.cfg.bufSize + t.scnt.toNat) (hflen : t.flen = 0) (herr : t.err = .noError)
    (hhead : HasHeader t) : Inv t :=
  { hf with
    wp_le := by omega
    scnt_le := hscnt
    idle := by simp [hp]
    opened := by simp [hp]
    str := fun _ => ⟨h6, hroom, hflen, herr, hhead⟩
    done := by simp [hp]
    error := by simp [hp, herr]
    error_flen := by simp [hp] }

/-- What R28 asks in phase DONE is enough for the invariant. -/
theorem inv_of_done {t : State} (hp : t.phase = .DONE) (hf : Filled t.buf t.cfg.bufSize t.wp.toNat)
    (hwp : t.wp.toNat ≤ t.cfg.bufSize) (herr : t.err = .noError) (hflen : t.flen = t.wp) (h8 : 8 ≤ t.flen.toNat)
    (hscnt : t.scnt = 0) (hframe : HasFrame t) : Inv t :=
  { hf with
    wp_le := hwp
    scnt_le := by simp [hscnt]
    idle := by simp [hp]
    opened := by simp [hp]
    str := by simp [hp]
    done := fun _ => ⟨herr, hflen, h8, hscnt, hframe⟩
    error := by simp [hp, herr]
    error_flen := by simp [hp] }

/-- The error transition keeps the invariant (60_exceptions.md R121). -/
theorem Inv.enterError {s : State} (h : Inv s) {e : ErrCode} (he : e ≠ .noError) : Inv (enterError e s) :=
  { h with
    idle := by simp
    opened := by simp
    str := by simp
    done := by simp
    error := by simp [he]
    error_flen := by simp }

/-- The invariant says nothing of the commands the host has presented. -/
theorem Inv.withPending {s : State} (h : Inv s) (ws : List Command) : Inv { s with pending := ws } := { h with }

/-- The invariant says nothing of the accumulators. -/
theorem Inv.withAccumulators {s : State} (h : Inv s) (a b : Byte) : Inv { s with cka := a, ckb := b } := { h with }

/-- The invariant holds after reset, for every `BUF_SIZE` (10_state.md R29). -/
theorem inv_resetWith (c : Config) : Inv (State.resetWith c) where
  wf := by simp
  inBuffer := by simp
  written := by simp
  wp_le := by simp
  scnt_le := by simp
  idle := by simp
  opened := by simp
  str := by simp
  done := by simp
  error := by simp
  error_flen := by simp

theorem inv_resetBlock (s : State) : Inv (resetBlock s) := (inv_resetWith s.cfg).withPending s.pending

/-! ### Each command keeps the invariant -/

section Keeps
variable {s t : State}

theorem execStart_keeps_inv {b : Byte} (hs : Inv s) (h : execStart b s = .next t) : Inv t := by
  cases h
  have h8 := (bufSize_bounds s.cfg).1
  have hlen : (header b).length = 6 := rfl
  refine inv_of_open rfl ?_ (by simp) (by simpa using h8) rfl rfl rfl (hasHeader_of_start s.buf b rfl)
  exact hs.filled.writeBytes (by omega) fun x hx => .inr ⟨by omega, by simpa [hlen] using hx⟩

theorem illegalCommand_keeps_inv (hs : Inv s) (h : illegalCommand s = .next t) : Inv t := by
  rcases illegalCommand_cases h with ⟨-, rfl⟩ | ⟨-, rfl⟩
  · exact hs
  · exact hs.enterError (by decide)

theorem execAbort_keeps_inv {b : Byte} (hs : Inv s) (h : execAbort b s = .next t) : Inv t := by
  rcases execAbort_cases h with ⟨e, he, rfl⟩ | ⟨-, ⟨-, rfl⟩ | ⟨-, rfl⟩⟩
  · obtain ⟨-, -, hne, -⟩ := hostReason_some he
    exact hs.enterError hne
  · exact hs
  · exact hs.enterError (by decide)

theorem put_keeps_inv {w k : Nat} {v : BitVec k} (hs : Inv s) (h : put w v s = .next t) : Inv t := by
  rcases put_cases h with ⟨-, rfl⟩ | ⟨hp, hw, hwp, ht⟩ | ⟨-, -, rfl⟩ | ⟨-, -, rfl⟩
  · exact hs
  · obtain ⟨h6, -, hscnt, hflen, herr, hhead⟩ := hs.opened hp
    have hf := hs.filled.append (bs := leBytes w v) (by rw [leBytes_length]; omega)
    rw [leBytes_length, ← hwp] at hf
    subst ht
    exact inv_of_open hp hf (by omega) (by simp only [hwp]; omega) hscnt hflen herr (hhead.writeBytes (by omega) rfl)
  · exact hs.enterError (by decide)
  · exact hs.enterError (by decide)

theorem execSbegin_keeps_inv (hs : Inv s) (h : execSbegin s = .next t) : Inv t := by
  rcases execSbegin_cases h with ⟨-, rfl⟩ | ⟨hp, hw, rfl⟩ | ⟨-, -, rfl⟩ | ⟨-, -, rfl⟩
  · exact hs
  · obtain ⟨h6, -, -, hflen, herr, hhead⟩ := hs.opened hp
    exact inv_of_str rfl hs.filled (by simp) (by simpa using h6) (by simpa using hw) hflen herr hhead
  · exact hs.enterError (by decide)
  · exact hs.enterError (by decide)

theorem execSchar_keeps_inv {b : Byte} (hs : Inv s) (h : execSchar b s = .next t) : Inv t := by
  rcases execSchar_cases h with ⟨-, rfl⟩ | ⟨hp, hc, hw, hwp, ht⟩ | ⟨-, -, rfl⟩ | ⟨-, -, rfl⟩
  · exact hs
  · obtain ⟨h6, hroom, hflen, herr, hhead⟩ := hs.str hp
    have hscnt : (s.scnt + 1).toNat = s.scnt.toNat + 1 := by
      rw [BitVec.toNat_add, show (1 : BitVec 6).toNat = 1 from rfl, Nat.mod_eq_of_lt (by omega)]
    have hf := hs.filled.append (bs := [b]) hw
    rw [List.length_singleton, ← hwp] at hf
    subst ht
    exact inv_of_str hp hf (by simp only [hscnt]; omega) (by simp only [hscnt, hwp]; omega)
      (by simp only [hscnt, hwp]; omega) hflen herr (hhead.writeBytes (by omega) rfl)
  · exact hs
  · exact hs.enterError (by decide)

theorem execSend_keeps_inv (hs : Inv s) (h : execSend s = .next t) : Inv t := by
  rcases execSend_cases h with ⟨-, rfl⟩ | ⟨hp, hw, hwp, ht⟩ | ⟨-, -, rfl⟩
  · exact hs
  · obtain ⟨h6, hroom, hflen, herr, hhead⟩ := hs.str hp
    have hscnt := hs.scnt_le
    have hf := hs.filled.append (bs := List.replicate (32 - s.scnt.toNat) PAD) (by simpa using hw)
    rw [List.length_replicate, ← hwp] at hf
    subst ht
    exact inv_of_open rfl hf (by omega) (by simp only [hwp]; omega) rfl hflen herr (hhead.writeBytes (by omega) rfl)
  · exact hs.enterError (by decide)

theorem execFinish_keeps_inv (hs : Inv s) (h : execFinish s = .next t) : Inv t := by
  rcases execFinish_cases h with ⟨-, rfl⟩ | ⟨hp, hw, hwp, bs, hsum, ht⟩ | ⟨-, -, rfl⟩
  · exact hs
  · obtain ⟨h6, -, hscnt, -, herr, hhead⟩ := hs.opened hp
    have hf := (hs.filled.patchLength (by omega)).append (bs := [(ck bs).1, (ck bs).2]) hw
    rw [show [(ck bs).1, (ck bs).2].length = 2 from rfl, ← hwp] at hf
    subst ht
    exact inv_of_done rfl hf (by simpa only [hwp] using hw) herr rfl (by simp only [hwp]; omega) hscnt
      (hasFrame_of_finish hhead h6 hsum rfl hwp)
  · exact hs.enterError (by decide)

/-- Every command keeps the invariant (R28). -/
theorem exec_keeps_inv {i : Instr} (hs : Inv s) (h : exec i s = .next t) : Inv t := by
  cases i with
  | start b => exact execStart_keeps_inv hs h
  | finish => exact execFinish_keeps_inv hs h
  | abort b => exact execAbort_keeps_inv hs h
  | ckclr => cases h; exact hs.withAccumulators _ _
  | ckbyte b => cases h; exact hs.withAccumulators _ _
  | sbegin => exact execSbegin_keeps_inv hs h
  | schar b => exact execSchar_keeps_inv hs h
  | send => exact execSend_keeps_inv hs h
  | putu8 v | putu16 v | putu32 v | putu64 v | puti8 v | puti16 v | puti32 v | putf32 v | putf64 v =>
    exact put_keeps_inv hs h

/-- All a word can do: a command's effect, or that of an illegal command (40_frame_control.md R53). -/
theorem perform_cases {w : Command} (h : perform w s = .next t) :
    (∃ i, decode w = .ok i ∧ exec i s = .next t) ∨ ((∃ e, decode w = .error e) ∧ illegalCommand s = .next t) := by
  cases hd : decode w with
  | ok i => exact .inl ⟨i, rfl, perform_ok s hd ▸ h⟩
  | error e => exact .inr ⟨⟨e, rfl⟩, perform_error s hd ▸ h⟩

/-- Performing a word keeps the invariant (R28). -/
theorem perform_keeps_inv {w : Command} (hs : Inv s) (h : perform w s = .next t) : Inv t := by
  rcases perform_cases h with ⟨i, -, h⟩ | ⟨-, h⟩
  · exact exec_keeps_inv hs h
  · exact illegalCommand_keeps_inv hs h

/-- All an operation of the host can do to the state (30_encoding.md R48): a word is performed, a read changes nothing,
a reset resets. -/
theorem serve_cases {op : PortOp} {r : Reply} (h : serve op s = .next (r, t)) :
    (∃ w, op = .command w ∧ perform w s = .next t) ∨
    (((∃ sel, op = .statusRead sel) ∨ ∃ a, op = .bufRead a) ∧ t = s) ∨
    (op = .reset ∧ t = resetBlock s) := by
  cases op with
  | command w =>
    unfold serve at h
    cases hw : perform w s <;> simp only [hw] at h <;> cases h
    exact .inl ⟨w, rfl, hw⟩
  | statusRead sel => cases h; exact .inr (.inl ⟨.inl ⟨sel, rfl⟩, rfl⟩)
  | bufRead a =>
    unfold serve at h
    cases hb : bufRead a s <;> simp only [hb] at h <;> cases h
    exact .inr (.inl ⟨.inr ⟨a, rfl⟩, rfl⟩)
  | reset => cases h; exact .inr (.inr ⟨rfl, rfl⟩)

end Keeps

/-! ### The writers of the accumulators -/

section Accumulators
variable {s t : State}

theorem illegalCommand_keeps_sums (h : illegalCommand s = .next t) : t.cka = s.cka ∧ t.ckb = s.ckb := by
  rcases illegalCommand_cases h with ⟨-, rfl⟩ | ⟨-, rfl⟩ <;> exact ⟨rfl, rfl⟩

theorem execAbort_keeps_sums {b : Byte} (h : execAbort b s = .next t) : t.cka = s.cka ∧ t.ckb = s.ckb := by
  rcases execAbort_cases h with ⟨e, -, rfl⟩ | ⟨-, ⟨-, rfl⟩ | ⟨-, rfl⟩⟩ <;> exact ⟨rfl, rfl⟩

theorem put_keeps_sums {w k : Nat} {v : BitVec k} (h : put w v s = .next t) : t.cka = s.cka ∧ t.ckb = s.ckb := by
  rcases put_cases h with ⟨-, rfl⟩ | ⟨-, -, -, rfl⟩ | ⟨-, -, rfl⟩ | ⟨-, -, rfl⟩ <;> exact ⟨rfl, rfl⟩

theorem execSbegin_keeps_sums (h : execSbegin s = .next t) : t.cka = s.cka ∧ t.ckb = s.ckb := by
  rcases execSbegin_cases h with ⟨-, rfl⟩ | ⟨-, -, rfl⟩ | ⟨-, -, rfl⟩ | ⟨-, -, rfl⟩ <;> exact ⟨rfl, rfl⟩

theorem execSchar_keeps_sums {b : Byte} (h : execSchar b s = .next t) : t.cka = s.cka ∧ t.ckb = s.ckb := by
  rcases execSchar_cases h with ⟨-, rfl⟩ | ⟨-, -, -, -, rfl⟩ | ⟨-, -, rfl⟩ | ⟨-, -, rfl⟩ <;> exact ⟨rfl, rfl⟩

theorem execSend_keeps_sums (h : execSend s = .next t) : t.cka = s.cka ∧ t.ckb = s.ckb := by
  rcases execSend_cases h with ⟨-, rfl⟩ | ⟨-, -, -, rfl⟩ | ⟨-, -, rfl⟩ <;> exact ⟨rfl, rfl⟩

/-- FINISH outside OPEN is ignored or raises the error, and leaves the sums. -/
theorem execFinish_keeps_sums (hp : s.phase ≠ .OPEN) (h : execFinish s = .next t) :
    t.cka = s.cka ∧ t.ckb = s.ckb := by
  rcases execFinish_cases h with ⟨-, rfl⟩ | ⟨hopen, -⟩ | ⟨-, -, rfl⟩
  · exact ⟨rfl, rfl⟩
  · exact absurd hopen hp
  · exact ⟨rfl, rfl⟩

/-- Every command but the three writers leaves the accumulators (10_state.md R16). -/
theorem exec_keeps_sums {i : Instr} (h : exec i s = .next t) :
    (i = .ckclr ∨ (∃ b, i = .ckbyte b) ∨ (i = .finish ∧ s.phase = .OPEN)) ∨ (t.cka = s.cka ∧ t.ckb = s.ckb) := by
  cases i with
  | start b => cases h; exact .inr ⟨rfl, rfl⟩
  | finish =>
    by_cases hp : s.phase = .OPEN
    · exact .inl (.inr (.inr ⟨rfl, hp⟩))
    · exact .inr (execFinish_keeps_sums hp h)
  | abort b => exact .inr (execAbort_keeps_sums h)
  | ckclr => exact .inl (.inl rfl)
  | ckbyte b => exact .inl (.inr (.inl ⟨b, rfl⟩))
  | sbegin => exact .inr (execSbegin_keeps_sums h)
  | schar b => exact .inr (execSchar_keeps_sums h)
  | send => exact .inr (execSend_keeps_sums h)
  | putu8 v | putu16 v | putu32 v | putu64 v | puti8 v | puti16 v | puti32 v | putf32 v | putf64 v =>
    exact .inr (put_keeps_sums h)

end Accumulators

/-! ### The status registers -/

section Status
variable (s : State)

@[simp] theorem statusRead_status : statusRead 0 s = statusWord s := rfl
@[simp] theorem statusRead_cka : statusRead 1 s = s.cka.setWidth 32 := rfl
@[simp] theorem statusRead_ckb : statusRead 2 s = s.ckb.setWidth 32 := rfl
@[simp] theorem statusRead_wp : statusRead 3 s = s.wp.setWidth 32 := rfl
@[simp] theorem statusRead_flen : statusRead 4 s = s.flen.setWidth 32 := rfl
@[simp] theorem statusRead_scnt : statusRead 5 s = s.scnt.setWidth 32 := rfl
@[simp] theorem statusRead_bufSize : statusRead 6 s = BitVec.ofNat 32 s.cfg.bufSize := rfl
@[simp] theorem statusRead_reserved : statusRead 7 s = 0 := rfl

/-- PHASE stands in bits 2:0, ERR in bits 7:4, and every other bit is 0 (10_state.md R24). -/
theorem statusWord_toNat : (statusWord s).toNat = (phaseCode s.phase).toNat + 16 * (errCode s.err).toNat := by
  have hphase := (phaseCode s.phase).isLt
  have herr := (errCode s.err).isLt
  simp only [statusWord, BitVec.toNat_append, BitVec.ofNat_eq_ofNat, BitVec.toNat_ofNat, Nat.zero_mod,
    Nat.zero_shiftLeft, Nat.zero_or, Nat.or_zero]
  rw [← Nat.shiftLeft_add_eq_or_of_lt hphase, Nat.shiftLeft_eq, Nat.shiftLeft_eq]
  omega

end Status

end Sys2Proof.Machine

/-! ### The statements -/

open Sys2Proof Sys2Proof.Machine

/-- Settles O3: a step waits, or performs a word with the word taken; neither `pending` nor the word breaks R28. -/
theorem stepKeepsInvariant : Obligations.StepKeepsInvariant := by
  intro s t hs h
  rcases step_cases h with ⟨-, rfl⟩ | ⟨w, ws, -, h⟩
  · exact hs
  · exact perform_keeps_inv (hs.withPending ws) h

/-- Settles O4, by the cases of an operation of the host. -/
theorem portsKeepInvariant : Obligations.PortsKeepInvariant := by
  intro op s t r hs h
  rcases serve_cases h with ⟨w, -, h⟩ | ⟨-, rfl⟩ | ⟨-, rfl⟩
  · exact perform_keeps_inv hs h
  · exact hs
  · exact inv_resetBlock s

/-- Settles O26: a word that is none of the three writers, or no command at all, leaves both sums. -/
theorem accumulatorWriters : Obligations.AccumulatorWriters := by
  intro w s t h hchanged
  have hleft : ¬ (t.cka = s.cka ∧ t.ckb = s.ckb) := fun ⟨ha, hb⟩ => hchanged.elim (· ha) (· hb)
  rcases perform_cases h with ⟨i, hd, h⟩ | ⟨-, h⟩
  · rcases (exec_keeps_sums h).resolve_right hleft with rfl | ⟨b, rfl⟩ | ⟨rfl, hp⟩
    · exact .inl hd
    · exact .inr (.inl ⟨b, hd⟩)
    · exact .inr (.inr ⟨hd, hp⟩)
  · exact absurd (illegalCommand_keeps_sums h) hleft

/-- Settles O2: reset leaves phase IDLE with an empty buffer, and R28 asks no more there. -/
theorem resetMeetsInvariant : Obligations.ResetMeetsInvariant :=
  ⟨inv_resetWith Config.default, inv_resetBlock⟩

/-- Settles O44: each register by its own law. -/
theorem statusRegisters : Obligations.StatusRegisters := by
  refine ⟨fun _ _ => rfl, fun s => ?registers, by decide, by decide, fun c => ?reset⟩
  case registers =>
    have hsize : s.cfg.bufSize ≤ 65543 := (bufSize_bounds s.cfg).2
    have hwide : (BitVec.ofNat 32 s.cfg.bufSize).toNat = s.cfg.bufSize := by
      rw [BitVec.toNat_ofNat, Nat.mod_eq_of_lt (by omega)]
    exact ⟨statusWord_toNat s, BitVec.toNat_setWidth_of_le (by decide), BitVec.toNat_setWidth_of_le (by decide),
      BitVec.toNat_setWidth_of_le (by decide), BitVec.toNat_setWidth_of_le (by decide),
      BitVec.toNat_setWidth_of_le (by decide), hwide, rfl⟩
  case reset => exact ⟨BitVec.eq_of_toNat_eq (statusWord_toNat _), rfl, rfl, rfl, rfl, rfl⟩

end

section
/-! PROOFS. The family of 20_memory.md: what a command writes and where (R35), the commands taken in order, one a step
(R37), and the host's reads of the buffer (R38). -/

namespace Sys2Proof.Machine

/-! ### What a command writes -/

/-- `t` keeps `BUF_SIZE`, and its buffer is `m` with some bytes appended at the `wp` of `s`, which advances past them
(20_memory.md R33, 42_serializer.md R89). -/
structure Appends (m : Memory) (s t : State) : Prop where
  cfg : t.cfg = s.cfg
  bytes : ∃ bs, t.buf = Memory.writeBytes m s.wp.toNat bs ∧ t.wp.toNat = s.wp.toNat + bs.length

section Appending
variable {m : Memory} {s t : State}

/-- A change that leaves `BUF_SIZE`, the buffer and `wp` appends no byte. -/
theorem Appends.none (hcfg : t.cfg = s.cfg) (hbuf : t.buf = s.buf) (hwp : t.wp = s.wp) : Appends s.buf s t :=
  ⟨hcfg, [], hbuf, by simp [hwp]⟩

theorem Appends.enterError (e : ErrCode) (s : State) : Appends s.buf s (enterError e s) := .none rfl rfl rfl

theorem Appends.wp_le (h : Appends m s t) : s.wp.toNat ≤ t.wp.toNat := by
  obtain ⟨bs, -, hwp⟩ := h.bytes
  omega

theorem Appends.read_below (h : Appends m s t) {a : Nat} (ha : a < s.wp.toNat) :
    Memory.read t.buf a = Memory.read m a := by
  obtain ⟨bs, hbuf, -⟩ := h.bytes
  rw [hbuf, Memory.read_writeBytes_outside _ _ _ _ (.inl ha)]

theorem Appends.read_from (h : Appends m s t) {a : Nat} (ha : t.wp.toNat ≤ a) :
    Memory.read t.buf a = Memory.read m a := by
  obtain ⟨bs, hbuf, hwp⟩ := h.bytes
  rw [hbuf, Memory.read_writeBytes_outside _ _ _ _ (.inr (by omega))]

theorem illegalCommand_appends (h : illegalCommand s = .next t) : Appends s.buf s t := by
  rcases illegalCommand_cases h with ⟨-, rfl⟩ | ⟨-, rfl⟩
  · exact .none rfl rfl rfl
  · exact .enterError _ s

theorem execAbort_appends {b : Byte} (h : execAbort b s = .next t) : Appends s.buf s t := by
  rcases execAbort_cases h with ⟨e, -, rfl⟩ | ⟨-, ⟨-, rfl⟩ | ⟨-, rfl⟩⟩
  · exact .enterError e s
  · exact .none rfl rfl rfl
  · exact .enterError _ s

theorem put_appends {w k : Nat} {v : BitVec k} (h : put w v s = .next t) : Appends s.buf s t := by
  rcases put_cases h with ⟨-, rfl⟩ | ⟨-, -, hwp, rfl⟩ | ⟨-, -, rfl⟩ | ⟨-, -, rfl⟩
  · exact .none rfl rfl rfl
  · exact ⟨rfl, leBytes w v, rfl, by rw [leBytes_length, hwp]⟩
  · exact .enterError _ s
  · exact .enterError _ s

theorem execSbegin_appends (h : execSbegin s = .next t) : Appends s.buf s t := by
  rcases execSbegin_cases h with ⟨-, rfl⟩ | ⟨-, -, rfl⟩ | ⟨-, -, rfl⟩ | ⟨-, -, rfl⟩
  · exact .none rfl rfl rfl
  · exact .none rfl rfl rfl
  · exact .enterError _ s
  · exact .enterError _ s

theorem execSchar_appends {b : Byte} (h : execSchar b s = .next t) : Appends s.buf s t := by
  rcases execSchar_cases h with ⟨-, rfl⟩ | ⟨-, -, -, hwp, rfl⟩ | ⟨-, -, rfl⟩ | ⟨-, -, rfl⟩
  · exact .none rfl rfl rfl
  · exact ⟨rfl, [b], rfl, hwp⟩
  · exact .none rfl rfl rfl
  · exact .enterError _ s

theorem execSend_appends (h : execSend s = .next t) : Appends s.buf s t := by
  rcases execSend_cases h with ⟨-, rfl⟩ | ⟨-, -, hwp, rfl⟩ | ⟨-, -, rfl⟩
  · exact .none rfl rfl rfl
  · exact ⟨rfl, List.replicate (32 - s.scnt.toNat) PAD, rfl, by rw [List.length_replicate, hwp]⟩
  · exact .enterError _ s

/-- FINISH appends the checksum after its length patch, which it makes in OPEN alone (40_frame_control.md R56). -/
theorem execFinish_appends (h : execFinish s = .next t) :
    Appends s.buf s t ∨ (s.phase = .OPEN ∧ Appends (patchLength s) s t) := by
  rcases execFinish_cases h with ⟨-, rfl⟩ | ⟨hp, -, hwp, bs, -, rfl⟩ | ⟨-, -, rfl⟩
  · exact .inl (.none rfl rfl rfl)
  · exact .inr ⟨hp, rfl, [(ck bs).1, (ck bs).2], rfl, hwp⟩
  · exact .inl (.enterError _ s)

/-- Every command but START and FINISH writes by appending alone (R89). -/
theorem exec_appends {i : Instr} (hstart : ∀ b, i ≠ .start b) (hfinish : i ≠ .finish) (h : exec i s = .next t) :
    Appends s.buf s t := by
  cases i with
  | start b => exact absurd rfl (hstart b)
  | finish => exact absurd rfl hfinish
  | abort b => exact execAbort_appends h
  | ckclr => cases h; exact .none rfl rfl rfl
  | ckbyte b => cases h; exact .none rfl rfl rfl
  | sbegin => exact execSbegin_appends h
  | schar b => exact execSchar_appends h
  | send => exact execSend_appends h
  | putu8 v | putu16 v | putu32 v | putu64 v | puti8 v | puti16 v | puti32 v | putf32 v | putf64 v =>
    exact put_appends h

/-- All a word other than START can write (20_memory.md R35): bytes at `wp` and upward, after FINISH's length patch or
on the buffer as it stands. -/
theorem perform_appends {w : Command} (hstart : ∀ b, decode w ≠ .ok (.start b)) (h : perform w s = .next t) :
    Appends s.buf s t ∨ (decode w = .ok .finish ∧ s.phase = .OPEN ∧ Appends (patchLength s) s t) := by
  rcases perform_cases h with ⟨i, hd, h⟩ | ⟨-, h⟩
  · by_cases hi : i = .finish
    · subst hi
      exact (execFinish_appends h).imp_right fun hopen => ⟨hd, hopen⟩
    · exact .inl (exec_appends (fun b hb => hstart b (hb ▸ hd)) hi h)
  · exact .inl (illegalCommand_appends h)

/-- No word writes `BUF_SIZE` (log entry 1). -/
theorem perform_keeps_cfg {w : Command} (h : perform w s = .next t) : t.cfg = s.cfg := by
  by_cases hstart : ∃ b, decode w = .ok (.start b)
  · obtain ⟨b, hb⟩ := hstart
    rw [perform_ok s hb] at h
    cases h
    rfl
  · rcases perform_appends (fun b hb => hstart ⟨b, hb⟩) h with ha | ⟨-, -, ha⟩ <;> exact ha.cfg

end Appending

/-! ### The commands the host has yet to deliver -/

/-- What `f` does is the same whatever commands are pending, and it leaves these as they are (log entry 2). -/
def IgnoresPending (f : State → Result) : Prop :=
  ∀ (s : State) (ws : List Command), f { s with pending := ws } = andThen (f s) fun t => .next { t with pending := ws }

section Pending
variable {f k : State → Result}

theorem IgnoresPending.next {s t : State} (h : IgnoresPending f) (hf : f s = .next t) (ws : List Command) :
    f { s with pending := ws } = .next { t with pending := ws } := by
  rw [h, hf, andThen_next]

theorem IgnoresPending.keeps_pending {s t : State} (h : IgnoresPending f) (hf : f s = .next t) :
    t.pending = s.pending := by
  have hsame : t = { t with pending := s.pending } := Host.Outcome.next.inj (hf.symm.trans (h.next hf s.pending))
  rw [hsame]

theorem IgnoresPending.andThen (hf : IgnoresPending f) (hk : IgnoresPending k) :
    IgnoresPending fun s => andThen (f s) k := by
  intro s ws
  show Machine.andThen (f { s with pending := ws }) k = Machine.andThen (Machine.andThen (f s) k) _
  rw [hf]
  cases f s with
  | next u => exact hk u ws
  | fault r => rfl
  | refused r => rfl

theorem IgnoresPending.inPhase {p : Phase} (hf : IgnoresPending f) : IgnoresPending (inPhase p f) := by
  intro s ws
  unfold Machine.inPhase
  split
  · rfl
  · split
    · exact hf s ws
    · rfl

theorem IgnoresPending.reserving {w : Nat} (hf : IgnoresPending f) : IgnoresPending (reserving w f) := by
  intro s ws
  unfold Machine.reserving
  split
  · exact hf s ws
  · rfl

theorem ignoresPending_append (bs : List Byte) : IgnoresPending (append bs) := by
  intro s ws
  unfold append
  split <;> rfl

theorem ignoresPending_illegalCommand : IgnoresPending illegalCommand := by
  intro s ws
  unfold illegalCommand
  split <;> rfl

theorem ignoresPending_execAbort (b : Byte) : IgnoresPending (execAbort b) := by
  intro s ws
  unfold execAbort
  cases hostReason b with
  | none => exact ignoresPending_illegalCommand s ws
  | some e => rfl

theorem ignoresPending_put (w : Nat) {n : Nat} (v : BitVec n) : IgnoresPending (put w v) :=
  (ignoresPending_append (leBytes w v)).reserving.inPhase

theorem ignoresPending_execSbegin : IgnoresPending execSbegin :=
  IgnoresPending.inPhase (IgnoresPending.reserving fun _ _ => rfl)

theorem ignoresPending_execSchar (b : Byte) : IgnoresPending (execSchar b) := by
  refine IgnoresPending.inPhase fun s ws => ?_
  by_cases hc : s.scnt.toNat < STR_LEN
  · simp only [if_pos hc]
    exact (ignoresPending_append [b]).andThen (fun _ _ => rfl) s ws
  · simp only [if_neg hc, andThen_next]

theorem ignoresPending_execSend : IgnoresPending execSend :=
  IgnoresPending.inPhase fun s ws =>
    (ignoresPending_append (List.replicate (STR_LEN - s.scnt.toNat) PAD)).andThen (fun _ _ => rfl) s ws

theorem ignoresPending_execFinish : IgnoresPending execFinish := by
  refine IgnoresPending.inPhase fun s ws => ?_
  have hsum : frameChecksum { s with pending := ws } = frameChecksum s := rfl
  rw [hsum]
  cases frameChecksum s with
  | none => rfl
  | some ab =>
    obtain ⟨a, b⟩ := ab
    exact (ignoresPending_append [a, b]).andThen (fun _ _ => rfl)
      { s with buf := patchLength s, cka := a, ckb := b } ws

/-- No command reads or writes the pending commands. -/
theorem ignoresPending_exec (i : Instr) : IgnoresPending (exec i) := by
  cases i with
  | start b => exact fun _ _ => rfl
  | finish => exact ignoresPending_execFinish
  | abort b => exact ignoresPending_execAbort b
  | ckclr => exact fun _ _ => rfl
  | ckbyte b => exact fun _ _ => rfl
  | sbegin => exact ignoresPending_execSbegin
  | schar b => exact ignoresPending_execSchar b
  | send => exact ignoresPending_execSend
  | putu8 v | putu16 v | putu32 v | putu64 v | puti8 v | puti16 v | puti32 v | putf32 v | putf64 v =>
    exact ignoresPending_put _ v

theorem ignoresPending_perform (w : Command) : IgnoresPending (perform w) := by
  intro s ws
  cases hd : decode w with
  | ok i => rw [perform_ok _ hd, perform_ok _ hd, ignoresPending_exec]
  | error e => rw [perform_error _ hd, perform_error _ hd, ignoresPending_illegalCommand]

end Pending

/-! ### Steps -/

/-- A step performs the next pending command, with it taken (20_memory.md R37). -/
theorem step_cons {s : State} {w : Command} {ws : List Command} (h : s.pending = w :: ws) :
    step s = perform w { s with pending := ws } := by
  unfold step
  rw [takeCommand_cons w s ws h]

theorem run_succ_of_step {s u : State} (h : step s = .next u) (n : Nat) :
    Host.Core.run core (n + 1) s = Host.Core.run core n u := by
  have hcore : core.step s = .next u := h
  simp only [Host.Core.run, hcore]

/-- As many steps as there are pending commands perform them all, in order (R37). -/
theorem run_performs_pending (ws : List Command) {s t : State} (hs : s.pending = ws)
    (h : performAll ws { s with pending := [] } = .next t) : Host.Core.run core ws.length s = .next t := by
  induction ws generalizing s with
  | nil =>
    rw [show ({ s with pending := [] } : State) = s from by rw [← hs]] at h
    exact h
  | cons w ws ih =>
    obtain ⟨u, hw, hws⟩ := andThen_eq_next h
    have hu : u.pending = [] := (ignoresPending_perform w).keeps_pending hw
    have hstep : step s = .next { u with pending := ws } :=
      (step_cons hs).trans ((ignoresPending_perform w).next hw ws)
    rw [List.length_cons, run_succ_of_step hstep]
    refine ih rfl ?_
    rw [show ({ u with pending := [] } : State) = u from by rw [← hu]]
    exact hws

/-! ### The host's reads of the buffer -/

section Reads
variable {a : Nat} {s : State}

theorem serve_bufRead_written {b : Byte} (ha : a < s.cfg.bufSize) (hb : Memory.read s.buf a = some b) :
    serve (.bufRead a) s = .next (.byte b, s) := by
  simp [serve, bufRead, ha, hb]

theorem serve_bufRead_neverWritten (ha : a < s.cfg.bufSize) (hb : Memory.read s.buf a = none) :
    serve (.bufRead a) s = .refused .readNeverWritten := by
  simp [serve, bufRead, ha, hb]

theorem serve_bufRead_beyond (ha : s.cfg.bufSize ≤ a) : serve (.bufRead a) s = .refused .readBeyondBuffer := by
  simp [serve, bufRead, Nat.not_lt.2 ha]

/-- Below `wp` every byte can be read, in a state that meets R28. -/
theorem Inv.serve_bufRead (h : Inv s) (ha : a < s.wp.toNat) : ∃ b, serve (.bufRead a) s = .next (.byte b, s) := by
  obtain ⟨b, hb⟩ := Option.isSome_iff_exists.1 (h.written a ha)
  exact ⟨b, serve_bufRead_written (Nat.lt_of_lt_of_le ha h.wp_le) hb⟩

end Reads

end Sys2Proof.Machine

/-! ### The statements -/

open Sys2Proof Sys2Proof.Machine

/-- Settles O13: a step waits, or performs a word that is no longer pending and touches neither `pending` nor `cfg`. -/
theorem stepTakesOne : Obligations.StepTakesOne := by
  intro s t h
  rcases step_cases h with ⟨hs, rfl⟩ | ⟨w, ws, hs, h⟩
  · exact ⟨by simp [hs], rfl⟩
  · have hpending := (ignoresPending_perform w).keeps_pending h
    have hcfg := perform_keeps_cfg h
    exact ⟨by rw [hpending, hs, List.tail_cons], hcfg⟩

/-- Settles O42: a word other than START appends at `wp`; FINISH patches offsets 4 and 5 first, which lie below `wp`
in OPEN by R28. -/
theorem writeDiscipline : Obligations.WriteDiscipline := by
  intro w s t hs h hstart
  rcases perform_appends hstart h with ha | ⟨hd, hp, ha⟩
  · exact ⟨ha.wp_le, fun a hlt _ => ha.read_below hlt, fun a hle => ha.read_from hle⟩
  · obtain ⟨h6, -⟩ := hs.opened hp
    have hwp := ha.wp_le
    refine ⟨hwp, fun a hlt hlength => ?_, fun a hle => ?_⟩
    · rw [ha.read_below hlt, read_patchLength a (hlength hd)]
    · rw [ha.read_from hle, read_patchLength a (by omega)]

/-- Settles O45: a read by whether the offset exists and has been written; in DONE `flen` is `wp`, and R28 has every
byte below it written. -/
theorem bufferRead : Obligations.BufferRead := by
  refine ⟨fun _ _ _ => serve_bufRead_written, fun _ _ => serve_bufRead_neverWritten,
    fun _ _ => serve_bufRead_beyond, fun s hs hp a ha => ?_⟩
  obtain ⟨-, hflen, -⟩ := hs.done hp
  exact hs.serve_bufRead (hflen ▸ ha)

/-- Settles O55, by induction on the pending commands: performing one does not depend on those behind it. -/
theorem pendingInOrder : Obligations.PendingInOrder := fun ws _ _ hs h => run_performs_pending ws hs h

end

section
/-! PROOFS. The family of 30_encoding.md: the decoder and the encoder (R40 to R47), and the assembler (R49). -/

namespace Sys2Proof

/-! ### What a word decodes to -/

/-- The data of a composed word. -/
theorem commandData_append (op : Byte) (d : Data) : commandData ((op ++ d : BitVec (8 + 64)) : Command) = d := by
  simpa [operandBits] using operandBits_append op d 64 (Nat.le_refl 64)

theorem Format.bits_le (f : Format) : f.bits ≤ 64 := by cases f <;> decide

/-- A word decodes to the command whose opcode it carries and whose operand it holds in the low bits the format names
(30_encoding.md R40 to R43). -/
theorem decode_eq_ok_iff {w : Command} {i : Instr} :
    decode w = .ok i ↔ commandOp w = i.opcode ∧ operandBits i.format.bits w = i.data.setWidth i.format.bits := by
  constructor
  case mp =>
    intro h
    unfold decode at h
    split at h <;> cases h
    all_goals exact ⟨BitVec.eq_of_toNat_eq ‹_›, by simp [Instr.data, Instr.format, Format.bits, BitVec.of_length_zero]⟩
  case mpr =>
    rintro ⟨hop, hdata⟩
    cases i with
    | finish | ckclr | sbegin | send => simp [decode, hop, Instr.opcode]
    | start b | abort b | ckbyte b | putu8 b | puti8 b | schar b | putu16 b | puti16 b | putu32 b | puti32 b | putf32 b
    | putu64 b | putf64 b =>
      simpa [decode, hop, Instr.opcode, Instr.data, Instr.format, Format.bits] using hdata

/-- An operand is the low bits of its word, and no more (R42). -/
theorem operandBits_congr {w w' : Command} {n : Nat} (hn : n ≤ 64) (h : ∀ k, k < n → w'.getLsbD k = w.getLsbD k) :
    operandBits n w' = operandBits n w := by
  apply BitVec.eq_of_getLsbD_eq
  intro k hk
  rw [getLsbD_operandBits _ _ _ hn, getLsbD_operandBits _ _ _ hn, h k hk]

/-! ### The encoder -/

theorem commandOp_encode (i : Instr) : commandOp (encode i) = i.opcode := commandOp_append _ _

theorem operandBits_encode (i : Instr) {n : Nat} (hn : n ≤ 64) : operandBits n (encode i) = i.data.setWidth n :=
  operandBits_append _ _ n hn

theorem decode_encode (i : Instr) : decode (encode i) = .ok i :=
  decode_eq_ok_iff.2 ⟨commandOp_encode i, operandBits_encode i i.format.bits_le⟩

/-- The encoder leaves the operand bits its format does not use 0 (R41). -/
theorem getLsbD_encode_unused (i : Instr) {k : Nat} (hk : i.format.bits ≤ k) (hk64 : k < 64) :
    (encode i).getLsbD k = false := by
  have h : Laws.EncodeOpcode.Statement i := by
    cases i with
    | finish | ckclr | sbegin | send => exact Laws.EncodeOpcode.of_zero _
    | start b | abort b | ckbyte b | putu8 b | puti8 b | schar b | putu16 b | puti16 b | putu32 b | puti32 b
    | putf32 b => exact Laws.EncodeOpcode.of_setWidth _ b
    | putu64 v | putf64 v => exact Laws.EncodeOpcode.of_full _ v
  exact h.2 k hk hk64

/-- The used operand bits of a command are those of any word that decodes to it (R42). -/
theorem getLsbD_encode_used {w : Command} {i : Instr} (h : decode w = .ok i) {k : Nat} (hk : k < i.format.bits) :
    (encode i).getLsbD k = w.getLsbD k := by
  obtain ⟨-, hdata⟩ := decode_eq_ok_iff.1 h
  have hn := i.format.bits_le
  have hbits : operandBits i.format.bits (encode i) = operandBits i.format.bits w := by
    rw [operandBits_encode i hn, hdata]
  calc (encode i).getLsbD k = (operandBits i.format.bits (encode i)).getLsbD k := by
        simp only [getLsbD_operandBits _ _ _ hn, hk, decide_true, Bool.true_and]
    _ = (operandBits i.format.bits w).getLsbD k := by rw [hbits]
    _ = w.getLsbD k := by simp only [getLsbD_operandBits _ _ _ hn, hk, decide_true, Bool.true_and]

/-! ### Illegal words -/

/-- The opcodes that R43 does not list (30_encoding.md R45). -/
def UnlistedOpcode (op : Nat) : Prop :=
  op = 0x00 ∨ (0x04 ≤ op ∧ op ≤ 0x07) ∨ (0x0A ≤ op ∧ op ≤ 0x0F) ∨ (0x17 ≤ op ∧ op ≤ 0x19) ∨
    (0x1C ≤ op ∧ op ≤ 0x1F) ∨ 0x23 ≤ op

/-- The words that are no command are those with an unlisted opcode (R45, R47). -/
theorem decode_error_iff {w : Command} : (∃ e, decode w = .error e) ↔ UnlistedOpcode (commandOp w).toNat := by
  unfold decode UnlistedOpcode
  split
  case h_18 =>
    simp only [imp_false] at *
    simp only [Except.error.injEq, exists_eq', true_iff]
    omega
  all_goals simp [*]

/-- The one reserved operand value is an ABORT reason outside 1 to 4 (R45). -/
theorem Instr.wellFormed_eq_false_iff {i : Instr} :
    i.wellFormed = false ↔ ∃ b : Byte, i = .abort b ∧ (b.toNat = 0 ∨ 4 < b.toNat) := by
  cases i with
  | abort b => simp [Instr.wellFormed]; omega
  | _ => simp [Instr.wellFormed]

end Sys2Proof

namespace Sys2Proof.Machine

/-- A reserved reason is no host failure (40_frame_control.md R57). -/
theorem hostReason_none {b : Byte} (h : b.toNat = 0 ∨ 4 < b.toNat) : hostReason b = none := by
  cases he : hostReason b with
  | none => rfl
  | some e =>
    obtain ⟨h1, h4, -⟩ := hostReason_some he
    omega

/-- A reserved ABORT is an illegal command (30_encoding.md R45). -/
theorem execAbort_reserved {b : Byte} (s : State) (h : b.toNat = 0 ∨ 4 < b.toNat) :
    execAbort b s = illegalCommand s := by
  simp [execAbort, hostReason_none h]

end Sys2Proof.Machine

namespace Sys2Proof.Text

open Sys2Proof.Machine

/-! ### The words of a line -/

section Lookup
variable {α : Type} {table : List (Bytes × α)} {name : Bytes}

theorem mem_of_lookup {x : α} (h : lookup table name = some x) : (name, x) ∈ table := by
  induction table with
  | nil => cases h
  | cons row rest ih =>
    unfold lookup at h
    split at h
    · cases h; subst name; exact List.mem_cons_self
    · exact List.mem_cons_of_mem _ (ih h)

theorem lookup_eq_none (h : ∀ row ∈ table, row.1 ≠ name) : lookup table name = none := by
  cases hl : lookup table name with
  | none => rfl
  | some x => exact absurd rfl (h _ (mem_of_lookup hl))

end Lookup

/-- The rows of the opcode map R43 whose format meets `p`: mnemonic and opcode. -/
def rowsOf (p : Format → Bool) : List (Bytes × Byte) :=
  (opcodeMap.filter fun row => p row.2.2).map fun row => (row.1, row.2.1)

/-- No two rows of the map have one mnemonic, so each is found by its own. -/
theorem lookup_row : ∀ row ∈ opcodeMap, lookup opcodeMap row.1 = some row.2 := by decide

theorem lookup_of_mem_rowsOf {p : Format → Bool} {r : Bytes × Byte} (h : r ∈ rowsOf p) :
    ∃ f, p f = true ∧ lookup opcodeMap r.1 = some (r.2, f) := by
  obtain ⟨row, hrow, rfl⟩ := List.mem_map.1 h
  obtain ⟨hmem, hp⟩ := List.mem_filter.1 hrow
  exact ⟨row.2.2, hp, lookup_row row hmem⟩

theorem mem_rowsOf {p : Format → Bool} {row : Bytes × Byte × Format} (h : row ∈ opcodeMap) (hp : p row.2.2 = true) :
    (row.1, row.2.1) ∈ rowsOf p :=
  List.mem_map.2 ⟨row, List.mem_filter.2 ⟨h, hp⟩, rfl⟩

/-- A word with an opcode of the map decodes (30_encoding.md R43, R45). -/
theorem decode_of_listed {w : Command} {row : Bytes × Byte × Format} (hrow : row ∈ opcodeMap)
    (hop : commandOp w = row.2.1) : ∃ i, decode w = .ok i := by
  have hlisted : ∀ row ∈ opcodeMap, ¬ UnlistedOpcode row.2.1.toNat := by unfold UnlistedOpcode; decide
  cases hd : decode w with
  | ok i => exact ⟨i, rfl⟩
  | error e => exact absurd (hop ▸ decode_error_iff.1 ⟨e, hd⟩) (hlisted row hrow)

section AssembleWords
variable {name : Bytes} {op : Byte} {f : Format}

theorem assembleWords_unknown (args : List Bytes) (h : lookup opcodeMap name = none) :
    assembleWords (name :: args) = .error .unknownMnemonic := by
  simp [assembleWords, h]

theorem assembleWords_plain (h : lookup opcodeMap name = some (op, .N)) :
    assembleWords [name] = .ok (some (op ++ (0 : Data))) ∧
      ∀ x args, assembleWords (name :: x :: args) = .error .operandCount := by
  simp [assembleWords, h]

/-- A mnemonic whose format has an operand (30_encoding.md R49). -/
theorem assembleWords_operand (h : lookup opcodeMap name = some (op, f)) (hf : f ≠ .N) :
    (∀ x d, literal x = some d → assembleWords [name, x] = .ok (some (op ++ d))) ∧
    (∀ x, literal x = none → assembleWords [name, x] = .error .badLiteral) ∧
    assembleWords [name] = .error .operandCount ∧
    ∀ x y args, assembleWords (name :: x :: y :: args) = .error .operandCount := by
  cases f with
  | N => contradiction
  | B | H | W | D => simp +contextual [assembleWords, h]

/-- What an assembled word is made of: an opcode of the map and a datum, which is the literal where there is one. -/
theorem assembleWords_eq_ok {toks : List Bytes} {w : Command} (h : assembleWords toks = .ok (some w)) :
    ∃ row ∈ opcodeMap, ∃ d : Data, w = row.2.1 ++ d ∧ ∀ name x, toks = [name, x] → literal x = some d := by
  cases toks with
  | nil => cases h
  | cons name args =>
    cases hl : lookup opcodeMap name with
    | none => cases (assembleWords_unknown args hl).symm.trans h
    | some entry =>
      obtain ⟨op, f⟩ := entry
      refine ⟨_, mem_of_lookup hl, ?_⟩
      by_cases hf : f = .N
      · subst f
        obtain ⟨hnone, hsome⟩ := assembleWords_plain hl
        cases args with
        | nil => cases hnone.symm.trans h; exact ⟨0, rfl, by simp⟩
        | cons x args => cases (hsome x args).symm.trans h
      · obtain ⟨hlit, hbad, hnone, hmore⟩ := assembleWords_operand hl hf
        match args with
        | [] => cases hnone.symm.trans h
        | [x] =>
          cases hx : literal x with
          | none => cases (hbad x hx).symm.trans h
          | some d => cases (hlit x d hx).symm.trans h; exact ⟨d, rfl, by simp [hx]⟩
        | x :: y :: args => cases (hmore x y args).symm.trans h

end AssembleWords

/-! ### Literals -/

/-- A run of digits spells its number, most significant first. -/
theorem digitsFrom_map {base : Nat} {digit : Byte → Option Nat} {char : Nat → Byte} {ds : List Nat}
    (h : ∀ d ∈ ds, digit (char d) = some d) (n : Nat) :
    digitsFrom base digit n (ds.map char) = some (ds.foldl (fun n d => base * n + d) n) := by
  induction ds generalizing n with
  | nil => rfl
  | cons d ds ih =>
    obtain ⟨hd, hds⟩ := List.forall_mem_cons.1 h
    simp only [List.map_cons, digitsFrom, hd, List.foldl_cons, ih hds, Nat.mul_comm base]

/-- The character of a digit in `digitsText`. -/
def digitChar (ten d : Nat) : Byte := BitVec.ofNat 8 (if d < 10 then 0x30 + d else ten + (d - 10))

theorem digitRun_digitsText {base ten : Nat} {digit : Byte → Option Nat} {ds : List Nat} (hne : ds ≠ [])
    (h : ∀ d ∈ ds, digit (digitChar ten d) = some d) :
    digitRun base digit (digitsText ten ds) = some (digitsValue base ds) := by
  cases ds with
  | nil => contradiction
  | cons d ds => exact digitsFrom_map h 0

theorem decDigit_digitChar : ∀ d < 10, decDigit (digitChar 0x41 d) = some d := by decide

/-- Hexadecimal digits in either case (log entry 11). -/
theorem hexDigit_digitChar {ten : Nat} (hten : ten = 0x41 ∨ ten = 0x61) :
    ∀ d < 16, hexDigit (digitChar ten d) = some d := by
  rcases hten with rfl | rfl <;> decide

/-- A decimal run is no `0x` literal: its second character is a digit. -/
theorem unsignedLiteral_decimal {tok : Bytes} {n : Nat} (h : digitRun 10 decDigit tok = some n) :
    unsignedLiteral tok = some n := by
  unfold unsignedLiteral
  split
  · simp [digitRun, digitsFrom, decDigit] at h
  · exact h

theorem unsignedLiteral_hex {tok : Bytes} {n : Nat} (h : digitRun 16 hexDigit tok = some n) :
    unsignedLiteral (0x30 :: 0x78 :: tok) = some n := by
  cases tok with
  | nil => cases h
  | cons c cs => exact h

/-- A literal denotes its number, and after a minus sign `2^64 - k` (30_encoding.md R49). -/
theorem literal_of_unsigned {tok : Bytes} {n : Nat} (h : unsignedLiteral tok = some n) (hn : n < 2 ^ 64) :
    literal tok = some (BitVec.ofNat 64 n) ∧ literal (0x2D :: tok) = some (BitVec.ofNat 64 (2 ^ 64 - n)) := by
  constructor
  · unfold literal
    split
    · cases h
    · rw [h, Option.bind_some, if_pos hn]
  · show (unsignedLiteral tok).bind _ = _
    rw [h, Option.bind_some, if_pos hn]

/-! ### A line and its words -/

section SplitTokens
variable {isSpace : Byte → Bool}

theorem splitTokens_blank {b : Bytes} (hb : ∀ c ∈ b, isSpace c = true) (rest : Bytes) :
    splitTokens isSpace [] (b ++ rest) = splitTokens isSpace [] rest := by
  induction b with
  | nil => rfl
  | cons c cs ih =>
    obtain ⟨hc, hcs⟩ := List.forall_mem_cons.1 hb
    rw [List.cons_append, splitTokens, if_pos hc, if_pos rfl, ih hcs]

theorem splitTokens_word {w : Bytes} (hw : ∀ c ∈ w, isSpace c = false) (cur rest : Bytes) :
    splitTokens isSpace cur (w ++ rest) = splitTokens isSpace (cur ++ w) rest := by
  induction w generalizing cur with
  | nil => simp
  | cons c cs ih =>
    obtain ⟨hc, hcs⟩ := List.forall_mem_cons.1 hw
    rw [List.cons_append, splitTokens, if_neg (by simp [hc]), ih hcs, List.append_assoc, List.singleton_append]

/-- A blank ends the word being read. -/
theorem splitTokens_gap {cur b : Bytes} (hcur : cur ≠ []) (hb : ∀ c ∈ b, isSpace c = true) (hne : b ≠ [])
    (rest : Bytes) : splitTokens isSpace cur (b ++ rest) = cur :: splitTokens isSpace [] rest := by
  cases b with
  | nil => contradiction
  | cons c cs =>
    obtain ⟨hc, hcs⟩ := List.forall_mem_cons.1 hb
    rw [List.cons_append, splitTokens, if_pos hc, if_neg hcur, splitTokens_blank hcs]

/-- Words, each with a gap after it, are split off one by one. -/
theorem splitTokens_words {ws : List (Bytes × Bytes)}
    (hws : ∀ p ∈ ws, (p.1 ≠ [] ∧ ∀ c ∈ p.1, isSpace c = false) ∧ p.2 ≠ [] ∧ ∀ c ∈ p.2, isSpace c = true)
    (rest : Bytes) :
    splitTokens isSpace [] (ws.flatMap (fun p => p.1 ++ p.2) ++ rest) =
      ws.map (·.1) ++ splitTokens isSpace [] rest := by
  induction ws with
  | nil => rfl
  | cons p ps ih =>
    obtain ⟨⟨⟨hw, hword⟩, hg, hgap⟩, hps⟩ := List.forall_mem_cons.1 hws
    rw [List.flatMap_cons, List.append_assoc, List.append_assoc, splitTokens_word hword, List.nil_append,
      splitTokens_gap hw hgap hg, ih hps, List.map_cons, List.cons_append]

/-- A word at the end of the text. -/
theorem splitTokens_last {w : Bytes} (hne : w ≠ []) (hw : ∀ c ∈ w, isSpace c = false) :
    splitTokens isSpace [] w = [w] := by
  have h := splitTokens_word hw [] []
  rwa [List.append_nil, List.nil_append, splitTokens, if_neg hne] at h

end SplitTokens

/-- A comment ends the line, wherever it begins (30_encoding.md R49). -/
theorem beforeComment_append {line tail : Bytes} (hline : ∀ c ∈ line, c ≠ 0x23)
    (htail : tail = [] ∨ ∃ note, tail = 0x23 :: note) : beforeComment (line ++ tail) = line := by
  induction line with
  | nil => rcases htail with rfl | ⟨note, rfl⟩ <;> rfl
  | cons c cs ih =>
    obtain ⟨hc, hcs⟩ := List.forall_mem_cons.1 hline
    rw [List.cons_append, beforeComment, if_neg hc, ih hcs]

theorem asmSpace_eq_true_iff {c : Byte} : asmSpace c = true ↔ c = 0x20 ∨ c = 0x09 := by simp [asmSpace]

theorem asmSpace_of_blank {b : Bytes} (h : IsAsmBlank b) : ∀ c ∈ b, asmSpace c = true :=
  fun c hc => asmSpace_eq_true_iff.2 (h c hc)

theorem asmSpace_of_word {w : Bytes} (h : IsAsmWord w) : ∀ c ∈ w, asmSpace c = false := by
  intro c hc
  obtain ⟨hspace, htab, -⟩ := h.2 c hc
  exact Bool.eq_false_iff.2 fun hblank => (asmSpace_eq_true_iff.1 hblank).elim hspace htab

theorem ne_hash_of_blank {b : Bytes} (h : IsAsmBlank b) : ∀ c ∈ b, c ≠ 0x23 := by
  intro c hc
  rcases h c hc with rfl | rfl <;> decide

section Line
variable {lead : Bytes} {ws : List (Bytes × Bytes)}

/-- Blanks, then words with a gap after each, hold no `#`. -/
theorem ne_hash_of_words (hlead : IsAsmBlank lead) (hws : ∀ p ∈ ws, IsAsmWord p.1 ∧ IsAsmBlank p.2 ∧ p.2 ≠ []) :
    ∀ c ∈ lead ++ ws.flatMap (fun p => p.1 ++ p.2), c ≠ 0x23 := by
  intro c hc
  rcases List.mem_append.1 hc with hc | hc
  · exact ne_hash_of_blank hlead c hc
  · obtain ⟨p, hp, hc⟩ := List.mem_flatMap.1 hc
    obtain ⟨hword, hgap, -⟩ := hws p hp
    rcases List.mem_append.1 hc with hc | hc
    · exact (hword.2 c hc).2.2
    · exact ne_hash_of_blank hgap c hc

/-- Blanks, then words with a gap after each, are split into the words and those of the rest. -/
theorem splitTokens_asmWords (hlead : IsAsmBlank lead)
    (hws : ∀ p ∈ ws, IsAsmWord p.1 ∧ IsAsmBlank p.2 ∧ p.2 ≠ []) (rest : Bytes) :
    splitTokens asmSpace [] (lead ++ ws.flatMap (fun p => p.1 ++ p.2) ++ rest) =
      ws.map (·.1) ++ splitTokens asmSpace [] rest := by
  rw [List.append_assoc, splitTokens_blank (asmSpace_of_blank hlead)]
  refine splitTokens_words (fun p hp => ?_) rest
  obtain ⟨hword, hgap, hne⟩ := hws p hp
  exact ⟨⟨hword.1, asmSpace_of_word hword⟩, hne, asmSpace_of_blank hgap⟩

end Line

end Sys2Proof.Text

/-! ### The statements -/

open Sys2Proof Sys2Proof.Machine Sys2Proof.Text

/-- Settles O6: the encoded word carries the command's opcode and operand, which determine what it decodes to. -/
theorem decodeEncode : Obligations.DecodeEncode := decode_encode

/-- Settles O7, each kind of bit by its own law. -/
theorem encodeDecode : Obligations.EncodeDecode := fun _ i h =>
  ⟨(decode_eq_ok_iff.1 h).1, fun _ => getLsbD_encode_used h, fun _ => getLsbD_encode_unused i⟩

/-- Settles O8: the decoder's last case is what R45 lists, and an illegal word and a reserved ABORT both are
`illegalCommand`. -/
theorem illegalCommands : Obligations.IllegalCommands := by
  refine ⟨fun _ => decode_error_iff, ?_, ?_, fun _ => Instr.wellFormed_eq_false_iff⟩
  · rintro w s ⟨e, he⟩
    rw [perform_error s he]
    exact ⟨illegalCommand_err, illegalCommand_raises⟩
  · intro b s hb
    have h : exec (.abort b) s = illegalCommand s := execAbort_reserved s hb
    rw [h]
    exact ⟨illegalCommand_err, illegalCommand_raises⟩

/-- Settles O10: equal opcodes and operands decode alike, and `perform` reads no more of a word. -/
theorem highBitsIgnored : Obligations.HighBitsIgnored := by
  intro w w' i h hop hbits
  have hsame : operandBits i.format.bits w' = operandBits i.format.bits w :=
    operandBits_congr i.format.bits_le hbits
  have h' : decode w' = .ok i := by
    rw [decode_eq_ok_iff, hop, hsame]
    exact decode_eq_ok_iff.1 h
  exact ⟨h', fun s => by rw [perform_ok s h', perform_ok s h]⟩

/-- Settles O9: five words are what the encoder gives; the two of PUTI32 carry its operand in their low 32 bits,
whatever stands above. -/
theorem workedEncodings : Obligations.WorkedEncodings :=
  ⟨decode_encode (.start 0x8A), decode_encode (.putu8 1), decode_encode (.putu32 0x20030001),
    decode_eq_ok_iff.2 ⟨rfl, rfl⟩, decode_eq_ok_iff.2 ⟨rfl, rfl⟩, decode_encode (.schar 0x41), decode_encode .finish⟩

/-- Settles O56: the rows of the map by their format, an assembled word by its row, a literal by its digits. -/
theorem assembledDecodes : Obligations.AssembledDecodes := by
  unfold Obligations.AssembledDecodes
  intro plain withOperand
  have hplain : plain = rowsOf (· = .N) := rfl
  have hoperand : withOperand = rowsOf (· ≠ .N) := rfl
  refine ⟨?plain, ?operand, ?unknown, ?decodes, ?decimal, ?hexadecimal⟩
  case plain =>
    intro r hr
    obtain ⟨f, hf, hl⟩ := lookup_of_mem_rowsOf (hplain ▸ hr)
    exact assembleWords_plain (of_decide_eq_true hf ▸ hl)
  case operand =>
    intro r hr
    obtain ⟨f, hf, hl⟩ := lookup_of_mem_rowsOf (hoperand ▸ hr)
    exact assembleWords_operand hl (of_decide_eq_true hf)
  case unknown =>
    intro name toks hname
    refine assembleWords_unknown toks (lookup_eq_none fun row hrow => ?_)
    rw [hplain, hoperand] at hname
    by_cases hf : row.2.2 = .N
    · exact hname _ (List.mem_append_left _ (mem_rowsOf hrow (decide_eq_true hf)))
    · exact hname _ (List.mem_append_right _ (mem_rowsOf hrow (decide_eq_true hf)))
  case decodes =>
    intro toks w h
    obtain ⟨row, hrow, d, rfl, hlit⟩ := assembleWords_eq_ok h
    obtain ⟨i, hi⟩ := decode_of_listed hrow (commandOp_append row.2.1 d)
    exact ⟨i, hi, fun name x htoks => by rw [hlit name x htoks, commandData_append]⟩
  case decimal =>
    rintro ds ⟨hne, hds, hlt⟩
    have hrun := digitRun_digitsText (base := 10) hne fun d hd => decDigit_digitChar d (hds d hd)
    exact literal_of_unsigned (unsignedLiteral_decimal hrun) hlt
  case hexadecimal =>
    rintro ten ds hten ⟨hne, hds, hlt⟩
    have hrun := digitRun_digitsText (base := 16) hne fun d hd => hexDigit_digitChar hten d (hds d hd)
    exact literal_of_unsigned (unsignedLiteral_hex hrun) hlt

/-- Settles O58: the comment falls away, and the blanks split off the words one by one. -/
theorem assembledLine : Obligations.AssembledLine := by
  refine ⟨rfl, fun lead tail ws hlead htail hws => ⟨?_, fun w hw => ?_⟩⟩
  · have hwords := splitTokens_asmWords hlead hws []
    rw [List.append_nil] at hwords
    rw [assemble, beforeComment_append (ne_hash_of_words hlead hws) htail, hwords]
    exact congrArg assembleWords (List.append_nil _)
  · have hhash : ∀ c ∈ w, c ≠ 0x23 := fun c hc => (hw.2 c hc).2.2
    rw [assemble, beforeComment_append (List.forall_mem_append.2 ⟨ne_hash_of_words hlead hws, hhash⟩) htail,
      splitTokens_asmWords hlead hws w, splitTokens_last hw.1 (asmSpace_of_word hw)]

end

section
/-! PROOFS. The family of 40_frame_control.md: the dispatch and its totality (R52 to R54), START, FINISH and ABORT
(R55 to R57), the frame they make of complete fields (R58, R60), and what a frame depends on (R59). -/

namespace Sys2Proof

/-- A word with a command's opcode and its operand in the low bits decodes to it, whatever stands above (30_encoding.md
R42). -/
theorem decode_opcode_append (i : Instr) {d : Data}
    (h : d.setWidth i.format.bits = i.data.setWidth i.format.bits) :
    decode ((i.opcode ++ d : BitVec (8 + 64)) : Command) = .ok i :=
  decode_eq_ok_iff.2 ⟨commandOp_append _ _, (operandBits_append _ _ _ i.format.bits_le).trans h⟩

/-- The encoding of a command with a byte operand (R41). -/
theorem decode_byte_operand (c : Byte → Instr) (d : Data) (hf : (c (d.setWidth 8)).format = .B)
    (hd : (c (d.setWidth 8)).data = (d.setWidth 8).setWidth 64) :
    decode (((c (d.setWidth 8)).opcode ++ d : BitVec (8 + 64)) : Command) = .ok (c (d.setWidth 8)) :=
  decode_opcode_append _ (by rw [hf, hd]; simp [Format.bits])

end Sys2Proof

namespace Sys2Proof.Machine

open Sys2Proof.Text

/-! ### Every command answers (R52) -/

section Answers
variable {s : State}

theorem inPhase_answers {p : Phase} {body : State → Result} (h : s.phase = p → ∃ t, body s = .next t) :
    ∃ t, inPhase p body s = .next t := by
  by_cases he : s.phase = .ERR
  · exact ⟨s, inPhase_err he⟩
  · by_cases hp : s.phase = p
    · rw [inPhase_legal hp (hp ▸ he)]
      exact h hp
    · exact ⟨_, inPhase_illegal hp he⟩

theorem reserving_answers {w : Nat} {body : State → Result}
    (h : s.wp.toNat + w + 2 ≤ s.cfg.bufSize → ∃ t, body s = .next t) : ∃ t, reserving w body s = .next t := by
  by_cases hw : s.wp.toNat + w + 2 ≤ s.cfg.bufSize
  · rw [reserving_fits hw]
    exact h hw
  · exact ⟨_, reserving_overflow (by omega)⟩

theorem illegalCommand_answers (s : State) : ∃ t, illegalCommand s = .next t := by
  by_cases he : s.phase = .ERR
  · exact ⟨s, illegalCommand_err he⟩
  · exact ⟨_, illegalCommand_raises he⟩

theorem execAbort_answers (b : Byte) (s : State) : ∃ t, execAbort b s = .next t := by
  unfold execAbort
  cases hostReason b with
  | some e => exact ⟨_, rfl⟩
  | none => exact illegalCommand_answers s

/-- A PUT needs no invariant: its bounds check covers its write (20_memory.md R36). -/
theorem put_answers (w : Nat) {k : Nat} (v : BitVec k) (s : State) : ∃ t, put w v s = .next t :=
  inPhase_answers fun _ => reserving_answers fun hw => ⟨_, append_eq (by rw [leBytes_length]; omega)⟩

theorem execSbegin_answers (s : State) : ∃ t, execSbegin s = .next t :=
  inPhase_answers fun _ => reserving_answers fun _ => ⟨_, rfl⟩

/-- SBEGIN reserved the whole field, so a character that is stored fits (43_string_packer.md R92). -/
theorem execSchar_answers (b : Byte) (hs : Inv s) : ∃ t, execSchar b s = .next t := by
  refine inPhase_answers fun hp => ?_
  obtain ⟨-, hroom, -⟩ := hs.str hp
  by_cases hc : s.scnt.toNat < STR_LEN
  · have hfit : s.wp.toNat + [b].length ≤ s.cfg.bufSize := by simp only [List.length_singleton, STR_LEN] at *; omega
    rw [if_pos hc, append_eq hfit]
    exact ⟨_, rfl⟩
  · rw [if_neg hc]
    exact ⟨s, rfl⟩

/-- SBEGIN reserved the whole field, so its padding fits (R93). -/
theorem execSend_answers (hs : Inv s) : ∃ t, execSend s = .next t := by
  by_cases hp : s.phase = .STR
  · obtain ⟨-, hroom, -⟩ := hs.str hp
    have hscnt := hs.scnt_le
    exact ⟨_, execSend_completes hp (by omega)⟩
  · exact inPhase_answers fun h => absurd h hp

/-- A write keeps a written byte written. -/
theorem Memory.isSome_read_writeBytes {m : Memory} {x : Nat} (a : Nat) (bs : List Byte)
    (h : (Memory.read m x).isSome) : (Memory.read (Memory.writeBytes m a bs) x).isSome := by
  rw [Memory.read_writeBytes]
  by_cases hin : a ≤ x ∧ x < a + bs.length
  · simpa [hin] using (show x - a < bs.length by omega)
  · rwa [if_neg hin]

/-- FINISH finds every byte it sums, where those from the class on have been written (R56). -/
theorem exists_summed (h : ∀ a, 2 ≤ a → a < s.wp.toNat → (Memory.read s.buf a).isSome) :
    ∃ bs, Memory.readBytes (patchLength s) 2 (s.wp.toNat - 2) = some bs :=
  Memory.readBytes_isSome _ _ _ fun k hk =>
    Memory.isSome_read_writeBytes 4 _ (h (2 + k) (by omega) (by omega))

theorem execFinish_answers (hs : Inv s) : ∃ t, execFinish s = .next t := by
  by_cases hp : s.phase = .OPEN
  · obtain ⟨-, hroom, -⟩ := hs.opened hp
    obtain ⟨bs, hsum⟩ := exists_summed fun a _ ha => hs.written a ha
    exact ⟨_, execFinish_completes hp hroom hsum⟩
  · exact inPhase_answers fun h => absurd h hp

theorem exec_answers (i : Instr) (hs : Inv s) : ∃ t, exec i s = .next t := by
  cases i with
  | start b | ckclr | ckbyte b => exact ⟨_, rfl⟩
  | finish => exact execFinish_answers hs
  | abort b => exact execAbort_answers b s
  | sbegin => exact execSbegin_answers s
  | schar b => exact execSchar_answers b hs
  | send => exact execSend_answers hs
  | putu8 v | putu16 v | putu32 v | putu64 v | puti8 v | puti16 v | puti32 v | putf32 v | putf64 v =>
    exact put_answers _ v s

theorem perform_answers (w : Command) (hs : Inv s) : ∃ t, perform w s = .next t := by
  cases hd : decode w with
  | ok i => rw [perform_ok s hd]; exact exec_answers i hs
  | error e => rw [perform_error s hd]; exact illegalCommand_answers s

theorem step_answers (hs : Inv s) : ∃ t, step s = .next t := by
  cases hp : s.pending with
  | nil => exact ⟨s, by rw [step, takeCommand_nil s hp]⟩
  | cons w ws => rw [step_cons hp]; exact perform_answers w (hs.withPending ws)

end Answers

/-! ### ABORT (R57) -/

/-- A reason from 1 to 4 names the host failure whose code it is (R57). -/
theorem hostReason_of_valid {b : Byte} (h1 : 1 ≤ b.toNat) (h4 : b.toNat ≤ 4) :
    ∃ e, hostReason b = some e ∧ (errCode e).toNat = b.toNat := by
  unfold hostReason
  split
  case h_5 => simp only [imp_false] at *; omega
  all_goals exact ⟨_, rfl, by simp_all [errCode]⟩

theorem execAbort_valid {b : Byte} {e : ErrCode} (s : State) (h : hostReason b = some e) :
    execAbort b s = .next (enterError e s) := by
  simp [execAbort, h]

/-- An ABORT that is not always performed has a reserved reason (R57). -/
theorem reserved_of_not_alwaysLegal {b : Byte} (h : alwaysLegal (.abort b) = false) : b.toNat = 0 ∨ 4 < b.toNat := by
  simp only [alwaysLegal, Bool.and_eq_false_iff, decide_eq_false_iff_not] at h
  omega

/-! ### The phase table (R54) -/

section Table
variable {s t : State} {i : Instr} {p : Phase}

/-- A command with a legal phase is dispatched by the phase test (R53 steps 4 and 6). -/
theorem exec_eq_inPhase (h : legalPhase i = some p) : ∃ body, exec i = inPhase p body := by
  cases i <;> cases h <;> exact ⟨_, rfl⟩

/-- A command that is not always performed has a legal phase, or is an ABORT with a reserved reason (R54). -/
theorem not_alwaysLegal (h : alwaysLegal i = false) :
    (∃ p, legalPhase i = some p) ∨ ∃ b : Byte, i = .abort b ∧ (b.toNat = 0 ∨ 4 < b.toNat) := by
  cases i with
  | start b | ckclr | ckbyte b => cases h
  | abort b => exact .inr ⟨b, rfl, reserved_of_not_alwaysLegal h⟩
  | _ => exact .inl ⟨_, rfl⟩

theorem alwaysLegal_phase (hi : alwaysLegal i = true) (h : exec i s = .next t) : t.phase = phaseAfter i s.phase := by
  cases i with
  | start b | ckclr | ckbyte b => cases h; rfl
  | abort b =>
    simp only [alwaysLegal, Bool.and_eq_true, decide_eq_true_eq] at hi
    obtain ⟨e, he, -⟩ := hostReason_of_valid hi.1 hi.2
    cases (execAbort_valid s he).symm.trans h
    rfl
  | _ => cases hi

/-- A command performed in its legal phase `p`, from `s` to `t`, ends in phase `q` without a fault, or fails its bounds
check for `w` bytes (R53 step 7). -/
def LegalEffect (q : Phase) (w : Nat) (s t : State) : Prop :=
  (t.phase = q ∧ t.err = s.err) ∨ (s.cfg.bufSize < s.wp.toNat + w + 2 ∧ t.err = .bufferOverflow ∧ t.phase = .ERR)

theorem put_legal {w k : Nat} {v : BitVec k} (hp : s.phase = .OPEN) (h : put w v s = .next t) :
    LegalEffect .OPEN w s t := by
  rw [put, inPhase_legal hp (by decide)] at h
  rcases reserving_cases h with ⟨-, h⟩ | ⟨hw, rfl⟩
  · obtain ⟨-, -, rfl⟩ := append_cases h
    exact .inl ⟨hp, rfl⟩
  · exact .inr ⟨hw, rfl, rfl⟩

theorem execSbegin_legal (hp : s.phase = .OPEN) (h : execSbegin s = .next t) : LegalEffect .STR 32 s t := by
  rw [execSbegin, inPhase_legal hp (by decide)] at h
  rcases reserving_cases h with ⟨-, h⟩ | ⟨hw, rfl⟩
  · cases h
    exact .inl ⟨rfl, rfl⟩
  · exact .inr ⟨hw, rfl, rfl⟩

theorem execSchar_legal {b : Byte} (hp : s.phase = .STR) (h : execSchar b s = .next t) : LegalEffect .STR 0 s t := by
  rcases execSchar_cases h with ⟨he, -⟩ | ⟨-, -, -, -, rfl⟩ | ⟨-, -, rfl⟩ | ⟨-, hne, -⟩
  · exact absurd (hp.symm.trans he) (by decide)
  · exact .inl ⟨hp, rfl⟩
  · exact .inl ⟨hp, rfl⟩
  · exact absurd hp hne

theorem execSend_legal (hp : s.phase = .STR) (h : execSend s = .next t) : LegalEffect .OPEN 0 s t := by
  rcases execSend_cases h with ⟨he, -⟩ | ⟨-, -, -, rfl⟩ | ⟨-, hne, -⟩
  · exact absurd (hp.symm.trans he) (by decide)
  · exact .inl ⟨rfl, rfl⟩
  · exact absurd hp hne

theorem execFinish_legal (hp : s.phase = .OPEN) (h : execFinish s = .next t) : LegalEffect .DONE 0 s t := by
  rcases execFinish_cases h with ⟨he, -⟩ | ⟨-, -, -, bs, -, rfl⟩ | ⟨-, hne, -⟩
  · exact absurd (hp.symm.trans he) (by decide)
  · exact .inl ⟨rfl, rfl⟩
  · exact absurd hp hne

/-- The cells of the table that are not blank: the phase afterwards, or an overflow (R54). -/
theorem exec_legal (hi : legalPhase i = some p) (hp : s.phase = p) (h : exec i s = .next t) :
    LegalEffect (phaseAfter i p) (roomNeeded i) s t := by
  cases i with
  | start b | ckclr | ckbyte b | abort b => cases hi
  | finish => cases hi; exact execFinish_legal hp h
  | sbegin => cases hi; exact execSbegin_legal hp h
  | schar b => cases hi; exact execSchar_legal hp h
  | send => cases hi; exact execSend_legal hp h
  | putu8 v | putu16 v | putu32 v | putu64 v | puti8 v | puti16 v | puti32 v | putf32 v | putf64 v =>
    cases hi; exact put_legal hp h

/-- A blank cell raises SequenceError (R54). -/
theorem exec_wrong_phase (hi : legalPhase i = some p) (hp : s.phase ≠ p) (he : s.phase ≠ .ERR) :
    exec i s = .next (enterError .sequenceError s) := by
  obtain ⟨body, hbody⟩ := exec_eq_inPhase hi
  rw [hbody, inPhase_illegal hp he]

/-- The ERR column: all but the always legal commands are ignored (R54). -/
theorem exec_ignored (hi : alwaysLegal i = false) (he : s.phase = .ERR) : exec i s = .next s := by
  rcases not_alwaysLegal hi with ⟨p, hp⟩ | ⟨b, rfl, hb⟩
  · obtain ⟨body, hbody⟩ := exec_eq_inPhase hp
    rw [hbody, inPhase_err he]
  · exact (execAbort_reserved s hb).trans (illegalCommand_err he)

/-- An unlisted opcode and a reserved ABORT are dispatched as an illegal command (R53 steps 4 and 5). -/
theorem perform_illegal {w : Command}
    (hw : (∃ e, decode w = .error e) ∨ ∃ b, decode w = .ok (.abort b) ∧ alwaysLegal (.abort b) = false) (s : State) :
    perform w s = illegalCommand s := by
  rcases hw with ⟨e, he⟩ | ⟨b, hd, hb⟩
  · exact perform_error s he
  · exact (perform_ok s hd).trans (execAbort_reserved s (reserved_of_not_alwaysLegal hb))

end Table

/-! ### START and FINISH on the buffer (R55, R56) -/

section Effects
variable {s : State}

/-- The state that START leaves (R55). -/
def started (id : Byte) (s : State) : State :=
  { s with buf := Memory.writeBytes s.buf 0 (header id), wp := 6, scnt := 0, err := .noError, flen := 0,
           phase := .OPEN }

@[simp] theorem started_wp (id : Byte) (s : State) : (started id s).wp.toNat = 6 := rfl

theorem exec_start (id : Byte) (s : State) : exec (.start id) s = .next (started id s) := rfl

theorem issue_start (id : Byte) (cs : List Instr) (s : State) : issue (.start id :: cs) s = issue cs (started id s) :=
  rfl

/-- The length field of FINISH, low byte first (R56, 20_memory.md R34). -/
theorem leBytes_two (n : Nat) : leBytes 2 (BitVec.ofNat 16 n) = [BitVec.ofNat 8 n, BitVec.ofNat 8 (n / 256)] := by
  have hlow : (BitVec.ofNat 16 n).extractLsb' 0 8 = BitVec.ofNat 8 n := BitVec.eq_of_toNat_eq (by simp)
  have hhigh : (BitVec.ofNat 16 n).extractLsb' 8 8 = BitVec.ofNat 8 (n / 256) :=
    BitVec.eq_of_toNat_eq (by simp [Nat.shiftRight_eq_div_pow]; omega)
  simp [leBytes, List.range_succ, hlow, hhigh]

theorem patchLength_eq (s : State) :
    patchLength s =
      Memory.writeBytes s.buf 4 [BitVec.ofNat 8 (s.wp.toNat - 6), BitVec.ofNat 8 ((s.wp.toNat - 6) / 256)] := by
  rw [patchLength, Memory.memWrite, leBytes_two]

theorem read_patchLength_low (s : State) :
    Memory.read (patchLength s) 4 = some (BitVec.ofNat 8 ((s.wp.toNat - 6) % 256)) := by
  have hmod : BitVec.ofNat 8 ((s.wp.toNat - 6) % 256) = BitVec.ofNat 8 (s.wp.toNat - 6) :=
    BitVec.eq_of_toNat_eq (by simp)
  rw [patchLength_eq, hmod]
  exact Memory.read_writeBytes_at _ _ 4 0 (by simp)

theorem read_patchLength_high (s : State) :
    Memory.read (patchLength s) 5 = some (BitVec.ofNat 8 ((s.wp.toNat - 6) / 256)) := by
  rw [patchLength_eq]
  exact Memory.read_writeBytes_at _ _ 4 1 (by simp)

/-- The buffer after FINISH's patch and append, where the bytes it sums are `bs` (R56). -/
def summedBuffer (bs : List Byte) (s : State) : Memory :=
  Memory.writeBytes (patchLength s) s.wp.toNat [(ck bs).1, (ck bs).2]

theorem read_summedBuffer {a : Nat} (bs : List Byte) (h0 : a ≠ s.wp.toNat) (h1 : a ≠ s.wp.toNat + 1) :
    Memory.read (summedBuffer bs s) a = Memory.read (patchLength s) a :=
  Memory.read_writeBytes_outside _ _ _ _ (by simp only [List.length_cons, List.length_nil]; omega)

theorem read_summedBuffer_sums (bs : List Byte) (s : State) :
    Memory.read (summedBuffer bs s) s.wp.toNat = some (ck bs).1 ∧
      Memory.read (summedBuffer bs s) (s.wp.toNat + 1) = some (ck bs).2 :=
  ⟨Memory.read_writeBytes_at _ _ _ 0 (by simp), Memory.read_writeBytes_at _ _ _ 1 (by simp)⟩

/-- `m` holds the bytes `bs` from offset `a` on. -/
def Memory.Spells (m : Memory) (a : Nat) (bs : List Byte) : Prop := Memory.readBytes m a bs.length = some bs

theorem Memory.spells_writeBytes (m : Memory) (a : Nat) (bs : List Byte) : Spells (writeBytes m a bs) a bs :=
  readBytes_writeBytes m a bs

theorem Memory.spells_append {m : Memory} {a : Nat} {xs ys : List Byte} :
    Spells m a (xs ++ ys) ↔ Spells m a xs ∧ Spells m (a + xs.length) ys := by
  constructor
  case mp =>
    intro h
    obtain ⟨-, hr⟩ := (readBytes_eq_some ..).1 h
    rw [List.length_append] at hr
    refine ⟨(readBytes_eq_some ..).2 ⟨rfl, fun k hk => ?_⟩, (readBytes_eq_some ..).2 ⟨rfl, fun k hk => ?_⟩⟩
    · rw [hr k (by omega), List.getElem?_append_left hk]
    · rw [Nat.add_assoc, hr _ (by omega), List.getElem?_append_right (by omega), Nat.add_sub_cancel_left]
  case mpr =>
    rintro ⟨hx, hy⟩
    unfold Spells
    rw [List.length_append]
    exact readBytes_append m a _ _ xs ys hx hy

/-- A write beside bytes leaves them. -/
theorem Memory.Spells.writeBytes_outside {m : Memory} {a b : Nat} {xs bs : List Byte} (h : Spells m b xs)
    (hout : b + xs.length ≤ a ∨ a + bs.length ≤ b) : Spells (writeBytes m a bs) b xs :=
  (readBytes_congr _ _ _ _ fun x _ _ => read_writeBytes_outside _ _ _ _ (by omega)).trans h

end Effects

/-! ### Appending fields (R58) -/

section Fields
variable {s : State}

theorem issue_singleton (i : Instr) (s : State) : issue [i] s = exec i s := by
  show andThen (exec i s) (issue []) = exec i s
  cases exec i s <;> rfl

/-- Appending two runs, one after the other, is appending them joined. -/
theorem append_append (xs ys : List Byte) (s : State) : append (xs ++ ys) s = andThen (append xs s) (append ys) := by
  by_cases hx : s.wp.toNat + xs.length ≤ s.cfg.bufSize
  · rw [append_eq hx, andThen_next]
    have hwp := wp_add_toNat xs.length hx
    by_cases hy : s.wp.toNat + xs.length + ys.length ≤ s.cfg.bufSize
    · rw [append_eq (by rw [List.length_append]; omega), append_eq (by rw [hwp]; exact hy), hwp,
        Memory.writeBytes_append, List.length_append, BitVec.ofNat_add, BitVec.add_assoc]
    · rw [append, append, if_neg (by rw [List.length_append]; omega), if_neg (by rw [hwp]; exact hy)]
  · rw [append, append, if_neg hx, if_neg (by rw [List.length_append]; omega)]
    rfl

theorem append_nil (h : s.wp.toNat ≤ s.cfg.bufSize) : append [] s = .next s := by
  rw [append_eq (by simpa using h)]
  simp [Memory.writeBytes]

/-- A legal PUT that fits is an append of its operand's bytes (42_serializer.md R73). -/
theorem put_eq_append {w k : Nat} {v : BitVec k} (hp : s.phase = .OPEN)
    (hw : s.wp.toNat + w + 2 ≤ s.cfg.bufSize) : put w v s = append (leBytes w v) s := by
  rw [put, inPhase_legal hp (by decide), reserving_fits hw]

/-- The low `n` bytes of a word are those of its low bits. -/
theorem leBytes_setWidth {n k : Nat} (d : Data) (h : 8 * n ≤ k) : leBytes n (d.setWidth k) = leBytes n d := by
  refine List.map_congr_left fun i hi => BitVec.eq_of_getLsbD_eq fun j hj => ?_
  have hi' := List.mem_range.1 hi
  simp only [BitVec.getLsbD_extractLsb', BitVec.getLsbD_setWidth, decide_eq_true (show 8 * i + j < k by omega),
    Bool.true_and]

/-- A numeric field is a PUT of its type's width (42_serializer.md R72). -/
theorem exec_emitNum (t : NumType) (d : Data) (s : State) : exec (emitNum t d) s = put t.width d s := by
  have hput : ∀ (n k : Nat), 8 * n ≤ k → put n (d.setWidth k) s = put n d s := fun n k h => by
    rw [put, put, leBytes_setWidth d h]
  cases t with
  | uint8 | int8 => exact hput 1 8 (by decide)
  | uint16 | int16 => exact hput 2 16 (by decide)
  | uint32 | int32 | float32 => exact hput 4 32 (by decide)
  | uint64 | float64 => rfl

/-- The string field open in `s` after the characters `cs`, of which it stores at most 32 (43_string_packer.md R92). -/
def withChars (cs : Bytes) (s : State) : State :=
  { s with buf := Memory.writeBytes s.buf s.wp.toNat (cs.take 32), wp := s.wp + BitVec.ofNat 17 (cs.take 32).length,
           scnt := BitVec.ofNat 6 (cs.take 32).length }

theorem withChars_nil (hc : s.scnt = 0) : withChars [] s = s := by
  have hzero : BitVec.ofNat 6 0 = s.scnt := hc.symm
  simp [withChars, Memory.writeBytes, hzero]

theorem withChars_wp (cs : Bytes) (hw : s.wp.toNat + 32 ≤ s.cfg.bufSize) :
    (withChars cs s).wp.toNat = s.wp.toNat + (cs.take 32).length :=
  wp_add_toNat _ (by rw [List.length_take]; omega)

theorem withChars_scnt (cs : Bytes) (s : State) : (withChars cs s).scnt.toNat = (cs.take 32).length := by
  have h := List.length_take_le 32 cs
  rw [withChars, BitVec.toNat_ofNat, Nat.mod_eq_of_lt (by omega)]

/-- One character more: stored below 32, dropped from the 33rd on (R92). -/
theorem execSchar_withChars (cs : Bytes) (c : Byte) (hp : s.phase = .STR) (hw : s.wp.toNat + 32 ≤ s.cfg.bufSize) :
    execSchar c (withChars cs s) = .next (withChars (cs ++ [c]) s) := by
  have hwp := withChars_wp cs hw
  have hscnt := withChars_scnt cs s
  by_cases hc : cs.length < 32
  · have hold : cs.take 32 = cs := List.take_of_length_le (by omega)
    have hnew : (cs ++ [c]).take 32 = cs ++ [c] := List.take_of_length_le (by simp; omega)
    rw [hold] at hwp hscnt
    rw [execSchar_stores (s := withChars cs s) hp (by omega) (by rw [hwp]; show _ < s.cfg.bufSize; omega), hwp]
    simp [withChars, hold, hnew, Memory.writeBytes_append, BitVec.ofNat_add, BitVec.add_assoc]
  · have hnew : (cs ++ [c]).take 32 = cs.take 32 := List.take_append_of_le_length (by omega)
    rw [execSchar_drops (s := withChars cs s) hp (by rw [hscnt, List.length_take]; omega)]
    simp only [withChars, hnew]

/-- Further characters `more`, each as the next one of the field. -/
theorem issue_more_chars (cs more : Bytes) (hp : s.phase = .STR) (hw : s.wp.toNat + 32 ≤ s.cfg.bufSize) :
    issue (more.map .schar) (withChars cs s) = .next (withChars (cs ++ more) s) := by
  induction more generalizing cs with
  | nil => rw [List.append_nil]; rfl
  | cons c more ih =>
    have hchar : exec (.schar c) (withChars cs s) = .next (withChars (cs ++ [c]) s) := execSchar_withChars cs c hp hw
    rw [List.map_cons, issue, hchar, andThen_next, ih, List.append_assoc, List.singleton_append]

theorem issue_chars (cs : Bytes) (hp : s.phase = .STR) (hc : s.scnt = 0) (hw : s.wp.toNat + 32 ≤ s.cfg.bufSize) :
    issue (cs.map .schar) s = .next (withChars cs s) := by
  have h := issue_more_chars [] cs hp hw
  rwa [withChars_nil hc, List.nil_append] at h

/-- SEND pads what the characters left of the field (R90, R93). -/
theorem execSend_withChars (cs : Bytes) (hp : s.phase = .STR) (hw : s.wp.toNat + 32 ≤ s.cfg.bufSize) :
    execSend (withChars cs s) =
      .next { s with buf := Memory.writeBytes s.buf s.wp.toNat (pack32 cs), wp := s.wp + BitVec.ofNat 17 32,
                     scnt := 0, phase := .OPEN } := by
  have hwp := withChars_wp cs hw
  have hscnt := withChars_scnt cs s
  have hle := List.length_take_le 32 cs
  have hpad : 32 - (cs.take 32).length = 32 - cs.length := by rw [List.length_take]; omega
  have hsum : BitVec.ofNat 17 (cs.take 32).length + BitVec.ofNat 17 (32 - cs.length) = BitVec.ofNat 17 32 := by
    rw [← hpad, ← BitVec.ofNat_add, Nat.add_sub_cancel' hle]
  rw [execSend_completes (s := withChars cs s) hp (by rw [hwp, hscnt]; show _ ≤ s.cfg.bufSize; omega), hwp, hscnt]
  simp only [withChars, pack32, STR_LEN, Memory.writeBytes_append, BitVec.add_assoc, hsum, hpad]

/-- A string group in phase OPEN, with room for it, appends its 32 bytes (R93, R94). -/
theorem issue_emitString (cs : Bytes) (hp : s.phase = .OPEN) (hc : s.scnt = 0)
    (hw : s.wp.toNat + 34 ≤ s.cfg.bufSize) : issue (emitString cs) s = append (pack32 cs) s := by
  have hbegin : exec .sbegin s = .next { s with scnt := 0, phase := .STR } := execSbegin_completes hp hw
  have hchars : issue (cs.map .schar) { s with scnt := 0, phase := .STR } =
      .next (withChars cs { s with scnt := 0, phase := .STR }) := issue_chars cs rfl rfl (by simp only; omega)
  have hsend : exec .send (withChars cs { s with scnt := 0, phase := .STR }) = _ :=
    execSend_withChars cs rfl (by simp only; omega)
  rw [append_eq (by rw [pack32_length]; omega), pack32_length, emitString, issue, hbegin, andThen_next, issue_append,
    hchars, andThen_next, issue, hsend, andThen_next, issue, ← hp, ← hc]

theorem Field.bytes_length (f : Field) : f.bytes.length = f.width := by
  cases f with
  | num t d => exact leBytes_length _ _
  | string cs => exact pack32_length cs

theorem flatMap_bytes_length (fields : List Field) :
    (fields.flatMap Field.bytes).length = (fields.map Field.width).sum := by
  rw [List.length_flatMap, List.map_congr_left fun f _ => Field.bytes_length f]

/-- A complete field that fits appends its bytes (R58). -/
theorem issue_field (f : Field) (hp : s.phase = .OPEN) (hc : s.scnt = 0)
    (hw : s.wp.toNat + f.width + 2 ≤ s.cfg.bufSize) : issue f.commands s = append f.bytes s := by
  cases f with
  | num t d =>
    show issue [emitNum t d] s = append (leBytes t.width d) s
    rw [issue_singleton, exec_emitNum]
    exact put_eq_append hp hw
  | string cs => exact issue_emitString cs hp hc hw

/-- Complete fields that fit append their bytes, one after the other. -/
theorem issue_fields (fields : List Field) (hp : s.phase = .OPEN) (hc : s.scnt = 0)
    (hw : s.wp.toNat + (fields.map Field.width).sum + 2 ≤ s.cfg.bufSize) :
    issue (fields.flatMap Field.commands) s = append (fields.flatMap Field.bytes) s := by
  induction fields generalizing s with
  | nil => exact (append_nil (by omega)).symm
  | cons f fs ih =>
    rw [List.map_cons, List.sum_cons] at hw
    have hfit : s.wp.toNat + f.bytes.length ≤ s.cfg.bufSize := by rw [Field.bytes_length]; omega
    have hwp := wp_add_toNat f.bytes.length hfit
    rw [Field.bytes_length] at hwp
    rw [List.flatMap_cons, List.flatMap_cons, issue_append, append_append, issue_field f hp hc (by omega),
      append_eq hfit, andThen_next, andThen_next]
    exact ih hp hc (by simp only [Field.bytes_length, hwp]; omega)

end Fields

/-! ### The completed frame (R56, R58) -/

section Complete
variable {s : State} {id : Byte} {payload : List Byte}

/-- What the checksum runs over: the frame from the class on, the true length among it (20_memory.md R34). -/
def frameBody (id : Byte) (payload : List Byte) : List Byte :=
  [CLASS, id, BitVec.ofNat 8 payload.length, BitVec.ofNat 8 (payload.length / 256)] ++ payload

theorem frameOf_eq (id : Byte) (payload : List Byte) :
    frameOf id payload =
      [SYNC0, SYNC1] ++ frameBody id payload ++ [(ck (frameBody id payload)).1, (ck (frameBody id payload)).2] := rfl

theorem frameBody_length (id : Byte) (payload : List Byte) : (frameBody id payload).length = 4 + payload.length := by
  simp [frameBody]; omega

/-- The part of the header that FINISH does not patch (R55). -/
theorem spells_startOfHeader {m : Memory} (h : Memory.Spells m 0 (header id ++ payload)) :
    Memory.Spells m 0 [SYNC0, SYNC1, CLASS, id] := by
  have hsplit : header id ++ payload = [SYNC0, SYNC1, CLASS, id] ++ ([0x00, 0x00] ++ payload) := rfl
  rw [hsplit] at h
  exact (Memory.spells_append.1 h).1

/-- FINISH's length patch turns START's placeholder into the payload length (R56). -/
theorem spells_patchLength (hbuf : Memory.Spells s.buf 0 (header id ++ payload))
    (hwp : s.wp.toNat = 6 + payload.length) :
    Memory.Spells (patchLength s) 0 ([SYNC0, SYNC1] ++ frameBody id payload) := by
  obtain ⟨-, hpayload⟩ := Memory.spells_append.1 hbuf
  have hpatch : patchLength s =
      Memory.writeBytes s.buf 4 [BitVec.ofNat 8 payload.length, BitVec.ofNat 8 (payload.length / 256)] := by
    rw [patchLength_eq, hwp, Nat.add_sub_cancel_left]
  have hid' : Memory.Spells (patchLength s) 0 [SYNC0, SYNC1, CLASS, id] :=
    (spells_startOfHeader hbuf).writeBytes_outside (.inl (by simp))
  have hlength : Memory.Spells (patchLength s) 4
      [BitVec.ofNat 8 payload.length, BitVec.ofNat 8 (payload.length / 256)] :=
    hpatch ▸ Memory.spells_writeBytes s.buf 4 _
  have hpayload' : Memory.Spells (patchLength s) 6 payload :=
    hpayload.writeBytes_outside (.inr (by simp [header]))
  show Memory.Spells (patchLength s) 0 ([SYNC0, SYNC1, CLASS, id] ++
    [BitVec.ofNat 8 payload.length, BitVec.ofNat 8 (payload.length / 256)] ++ payload)
  exact Memory.spells_append.2 ⟨Memory.spells_append.2 ⟨hid', hlength⟩, hpayload'⟩

/-- The checksum completes the frame behind its payload (R56). -/
theorem spells_summedBuffer (hbuf : Memory.Spells s.buf 0 (header id ++ payload))
    (hwp : s.wp.toNat = 6 + payload.length) :
    Memory.Spells (summedBuffer (frameBody id payload) s) 0 (frameOf id payload) := by
  have hpatch := spells_patchLength hbuf hwp
  have hend : s.wp.toNat = 0 + ([SYNC0, SYNC1] ++ frameBody id payload).length := by
    rw [hwp, List.length_append, frameBody_length, List.length_cons, List.length_singleton]; omega
  rw [frameOf_eq]
  refine Memory.spells_append.2 ⟨hpatch.writeBytes_outside (.inl (by omega)), ?_⟩
  rw [← hend]
  exact Memory.spells_writeBytes ..

/-- FINISH completes the frame whose header and payload the buffer holds (R56, R58). -/
theorem execFinish_frame (hp : s.phase = .OPEN) (hbuf : Memory.Spells s.buf 0 (header id ++ payload))
    (hwp : s.wp.toNat = 6 + payload.length) (hw : s.wp.toNat + 2 ≤ s.cfg.bufSize) :
    ∃ t, execFinish s = .next t ∧ t.phase = .DONE ∧ t.err = s.err ∧ t.flen.toNat = 8 + payload.length ∧
      frameBytes t = some (frameOf id payload) ∧ HasFrame t := by
  have hlen := frameBody_length id payload
  have hsum : Memory.readBytes (patchLength s) 2 (s.wp.toNat - 2) = some (frameBody id payload) := by
    obtain ⟨-, hbody⟩ := Memory.spells_append.1 (spells_patchLength hbuf hwp)
    rwa [Memory.Spells, hlen, show 4 + payload.length = s.wp.toNat - 2 by omega] at hbody
  have hflen := wp_add_toNat 2 hw
  have hhead : HasHeader s := ⟨id, spells_startOfHeader hbuf⟩
  have hsize : s.wp.toNat + 2 = (frameOf id payload).length := by
    simp only [frameOf_eq, List.length_append, hlen, hwp, List.length_cons, List.length_nil]; omega
  refine ⟨_, execFinish_completes hp hw hsum, rfl, rfl, hflen.trans (by omega), ?_,
    hasFrame_of_finish hhead (by omega) hsum rfl hflen⟩
  rw [frameBytes, hflen, hsize]
  exact spells_summedBuffer hbuf hwp

/-- START, complete fields that fit, FINISH, from every state (R58). -/
theorem issue_frame (id : Byte) (fields : List Field) (s : State)
    (hw : 8 + (fields.map Field.width).sum ≤ s.cfg.bufSize) :
    ∃ t, issue (.start id :: (fields.flatMap Field.commands ++ [.finish])) s = .next t ∧
      t.phase = .DONE ∧ t.err = .noError ∧ t.flen.toNat = 8 + (fields.map Field.width).sum ∧
      frameBytes t = some (frameOf id (fields.flatMap Field.bytes)) ∧ HasFrame t := by
  rw [← flatMap_bytes_length] at hw ⊢
  have hroom : 6 + (fields.flatMap Field.bytes).length + 2 ≤ (started id s).cfg.bufSize := by
    show _ ≤ s.cfg.bufSize; omega
  have hfit : (started id s).wp.toNat + (fields.flatMap Field.bytes).length ≤ (started id s).cfg.bufSize := by
    rw [started_wp]; omega
  have hwp := wp_add_toNat _ hfit
  have hspell := Memory.spells_writeBytes s.buf 0 (header id ++ fields.flatMap Field.bytes)
  rw [Memory.writeBytes_append] at hspell
  rw [issue_start, issue_append, issue_fields fields rfl rfl (by rw [← flatMap_bytes_length]; exact hroom),
    append_eq hfit, andThen_next, issue_singleton]
  exact execFinish_frame rfl hspell hwp (by simp only [hwp]; exact hroom)

/-- START then FINISH: the frame without a payload (R60). -/
theorem frameOf_nil (b : Byte) :
    frameOf b [] = [0xB5, 0x62, 0x06, b, 0x00, 0x00, BitVec.ofNat 8 ((6 + b.toNat) % 256),
      BitVec.ofNat 8 ((24 + 3 * b.toNat) % 256)] := by
  have hsums : ck [0x06, b, 0, 0] =
      (BitVec.ofNat 8 ((6 + b.toNat) % 256), BitVec.ofNat 8 ((24 + 3 * b.toNat) % 256)) := by
    refine Prod.ext (BitVec.eq_of_toNat_eq ?_) (BitVec.eq_of_toNat_eq ?_)
    · simp [ck, ckstep]
    · simp [ck, ckstep]; omega
  rw [frameOf_eq]
  show [SYNC0, SYNC1, CLASS, b, 0, 0, (ck [0x06, b, 0, 0]).1, (ck [0x06, b, 0, 0]).2] = _
  rw [hsums]
  rfl

end Complete

/-! ### What a frame depends on (R59) -/

/-- Two states that the same commands carry to the same frame: they differ in the accumulators, in the bytes from `wp`
on and in the commands pending (R59). -/
structure SameFrame (s₁ s₂ : State) : Prop where
  cfg : s₁.cfg = s₂.cfg
  phase : s₁.phase = s₂.phase
  err : s₁.err = s₂.err
  flen : s₁.flen = s₂.flen
  wp : s₁.wp = s₂.wp
  scnt : s₁.scnt = s₂.scnt
  bytes : ∀ a, a < s₁.wp.toNat → Memory.read s₁.buf a = Memory.read s₂.buf a
  flen_le : s₁.flen.toNat ≤ s₁.wp.toNat

/-- `f` keeps `SameFrame`, where it answers. -/
def KeepsSameFrame (f : State → Result) : Prop :=
  ∀ ⦃s₁ s₂ t₁ t₂ : State⦄, SameFrame s₁ s₂ → f s₁ = .next t₁ → f s₂ = .next t₂ → SameFrame t₁ t₂

section Determinism
variable {s₁ s₂ : State} {f k : State → Result}

theorem SameFrame.frameBytes_eq (h : SameFrame s₁ s₂) : frameBytes s₁ = frameBytes s₂ := by
  rw [frameBytes, frameBytes, ← h.flen]
  have hle := h.flen_le
  exact Memory.readBytes_congr _ _ _ _ fun a _ ha => h.bytes a (by omega)

theorem SameFrame.enterError (h : SameFrame s₁ s₂) (e : ErrCode) : SameFrame (enterError e s₁) (enterError e s₂) :=
  { h with phase := rfl, err := rfl, flen := rfl, flen_le := Nat.zero_le _ }

/-- START leaves nothing of what the block held but `BUF_SIZE` (R55). -/
theorem sameFrame_started (b : Byte) (h : s₁.cfg = s₂.cfg) : SameFrame (started b s₁) (started b s₂) where
  cfg := h
  phase := rfl
  err := rfl
  flen := rfl
  wp := rfl
  scnt := rfl
  bytes a ha := by
    have hin : 0 ≤ a ∧ a < 0 + (header b).length := ⟨Nat.zero_le a, ha⟩
    simp only [started, Memory.read_writeBytes, if_pos hin]
  flen_le := Nat.zero_le _

/-- Bytes written alike agree, and the others do where they agreed before. -/
theorem Memory.read_writeBytes_congr {m₁ m₂ : Memory} {a x : Nat} {bs : List Byte}
    (h : ¬ (a ≤ x ∧ x < a + bs.length) → Memory.read m₁ x = Memory.read m₂ x) :
    Memory.read (Memory.writeBytes m₁ a bs) x = Memory.read (Memory.writeBytes m₂ a bs) x := by
  rw [Memory.read_writeBytes, Memory.read_writeBytes]
  split
  · rfl
  · exact h ‹_›

theorem keepsSameFrame_illegalCommand : KeepsSameFrame illegalCommand := by
  intro s₁ s₂ t₁ t₂ h h₁ h₂
  by_cases he : s₁.phase = .ERR
  · cases (illegalCommand_err he).symm.trans h₁
    cases (illegalCommand_err (h.phase ▸ he)).symm.trans h₂
    exact h
  · cases (illegalCommand_raises he).symm.trans h₁
    cases (illegalCommand_raises (h.phase ▸ he)).symm.trans h₂
    exact h.enterError _

theorem KeepsSameFrame.andThen (hf : KeepsSameFrame f) (hk : KeepsSameFrame k) :
    KeepsSameFrame fun s => andThen (f s) k := by
  intro s₁ s₂ t₁ t₂ h h₁ h₂
  obtain ⟨u₁, hu₁, h₁⟩ := andThen_eq_next h₁
  obtain ⟨u₂, hu₂, h₂⟩ := andThen_eq_next h₂
  exact hk (hf h hu₁ hu₂) h₁ h₂

theorem KeepsSameFrame.inPhase {p : Phase} (hf : KeepsSameFrame f) : KeepsSameFrame (inPhase p f) := by
  intro s₁ s₂ t₁ t₂ h h₁ h₂
  by_cases he : s₁.phase = .ERR
  · cases (inPhase_err he).symm.trans h₁
    cases (inPhase_err (h.phase ▸ he)).symm.trans h₂
    exact h
  · by_cases hp : s₁.phase = p
    · have hne : p ≠ .ERR := hp ▸ he
      rw [inPhase_legal hp hne] at h₁
      rw [inPhase_legal (h.phase ▸ hp) hne] at h₂
      exact hf h h₁ h₂
    · cases (inPhase_illegal hp he).symm.trans h₁
      cases (inPhase_illegal (h.phase ▸ hp) (h.phase ▸ he)).symm.trans h₂
      exact h.enterError _

theorem KeepsSameFrame.reserving {w : Nat} (hf : KeepsSameFrame f) : KeepsSameFrame (reserving w f) := by
  intro s₁ s₂ t₁ t₂ h h₁ h₂
  by_cases hw : s₁.wp.toNat + w + 2 ≤ s₁.cfg.bufSize
  · rw [reserving_fits hw] at h₁
    rw [reserving_fits (h.cfg ▸ h.wp ▸ hw)] at h₂
    exact hf h h₁ h₂
  · have hlt := Nat.lt_of_not_le hw
    cases (reserving_overflow hlt).symm.trans h₁
    cases (reserving_overflow (h.cfg ▸ h.wp ▸ hlt)).symm.trans h₂
    exact h.enterError _

theorem keepsSameFrame_append (bs : List Byte) : KeepsSameFrame (append bs) := by
  intro s₁ s₂ t₁ t₂ h h₁ h₂
  obtain ⟨-, hwp, ht₁⟩ := append_cases h₁
  obtain ⟨-, -, ht₂⟩ := append_cases h₂
  have hle := h.flen_le
  have hbytes : ∀ a, a < s₁.wp.toNat + bs.length →
      Memory.read (Memory.writeBytes s₁.buf s₁.wp.toNat bs) a =
        Memory.read (Memory.writeBytes s₂.buf s₂.wp.toNat bs) a :=
    fun a ha => h.wp ▸ Memory.read_writeBytes_congr fun hout => h.bytes a (by omega)
  rw [← hwp] at hbytes
  have hflen : s₁.flen.toNat ≤ t₁.wp.toNat := by omega
  subst ht₁ ht₂
  exact { h with wp := congrArg (· + _) h.wp, bytes := hbytes, flen_le := hflen }

theorem keepsSameFrame_execAbort (b : Byte) : KeepsSameFrame (execAbort b) := by
  intro s₁ s₂ t₁ t₂ h h₁ h₂
  cases hb : hostReason b with
  | some e =>
    cases (execAbort_valid s₁ hb).symm.trans h₁
    cases (execAbort_valid s₂ hb).symm.trans h₂
    exact h.enterError e
  | none =>
    simp only [execAbort, hb] at h₁ h₂
    exact keepsSameFrame_illegalCommand h h₁ h₂

theorem keepsSameFrame_put (w : Nat) {n : Nat} (v : BitVec n) : KeepsSameFrame (put w v) :=
  (keepsSameFrame_append (leBytes w v)).reserving.inPhase

theorem keepsSameFrame_execSbegin : KeepsSameFrame execSbegin := by
  refine KeepsSameFrame.inPhase (KeepsSameFrame.reserving fun s₁ s₂ t₁ t₂ h h₁ h₂ => ?_)
  cases h₁
  cases h₂
  exact { h with phase := rfl, scnt := rfl }

/-- The closing step of SCHAR and SEND: `scnt` and the phase change by their own values alone. -/
theorem keepsSameFrame_set (n : BitVec 6 → BitVec 6) (p : Phase → Phase) :
    KeepsSameFrame fun s => .next { s with scnt := n s.scnt, phase := p s.phase } := by
  intro s₁ s₂ t₁ t₂ h h₁ h₂
  cases h₁
  cases h₂
  exact { h with phase := congrArg p h.phase, scnt := congrArg n h.scnt }

theorem keepsSameFrame_execSchar (b : Byte) : KeepsSameFrame (execSchar b) := by
  refine KeepsSameFrame.inPhase fun s₁ s₂ t₁ t₂ h h₁ h₂ => ?_
  have hscnt := h.scnt
  by_cases hc : s₁.scnt.toNat < STR_LEN
  · rw [if_pos hc] at h₁
    rw [if_pos (hscnt ▸ hc)] at h₂
    exact (keepsSameFrame_append [b]).andThen (keepsSameFrame_set (· + 1) id) h h₁ h₂
  · rw [if_neg hc] at h₁
    rw [if_neg (hscnt ▸ hc)] at h₂
    cases h₁
    cases h₂
    exact h

theorem keepsSameFrame_execSend : KeepsSameFrame execSend := by
  refine KeepsSameFrame.inPhase fun s₁ s₂ t₁ t₂ h h₁ h₂ => ?_
  rw [← h.scnt] at h₂
  exact (keepsSameFrame_append (List.replicate (STR_LEN - s₁.scnt.toNat) PAD)).andThen
    (keepsSameFrame_set (fun _ => 0) fun _ => .OPEN) h h₁ h₂

/-- FINISH patches and sums bytes below `wp` alone (R56). -/
theorem SameFrame.patched (h : SameFrame s₁ s₂) (a b : Byte) :
    SameFrame { s₁ with buf := patchLength s₁, cka := a, ckb := b }
      { s₂ with buf := patchLength s₂, cka := a, ckb := b } :=
  { h with
    bytes := fun x hx => by
      simp only [patchLength, ← h.wp]
      exact Memory.read_writeBytes_congr fun _ => h.bytes x hx }

theorem SameFrame.frameChecksum_eq (h : SameFrame s₁ s₂) : frameChecksum s₁ = frameChecksum s₂ := by
  have hread : Memory.readBytes (patchLength s₁) 2 (s₁.wp.toNat - 2) =
      Memory.readBytes (patchLength s₂) 2 (s₁.wp.toNat - 2) :=
    Memory.readBytes_congr _ _ _ _ fun x h1 h2 => (h.patched 0 0).bytes x (show x < s₁.wp.toNat by omega)
  rw [frameChecksum, frameChecksum, ← h.wp, hread]

theorem keepsSameFrame_execFinish : KeepsSameFrame execFinish := by
  refine KeepsSameFrame.inPhase fun s₁ s₂ t₁ t₂ h h₁ h₂ => ?_
  rw [← h.frameChecksum_eq] at h₂
  cases hsum : frameChecksum s₁ with
  | none => rw [hsum] at h₁; cases h₁
  | some ab =>
    rw [hsum] at h₁ h₂
    refine (keepsSameFrame_append [ab.1, ab.2]).andThen (fun u₁ u₂ v₁ v₂ hu hv₁ hv₂ => ?_) (h.patched ab.1 ab.2) h₁ h₂
    cases hv₁
    cases hv₂
    exact { hu with flen := hu.wp, phase := rfl, flen_le := Nat.le_refl _ }

/-- Every command carries states of the same frame to states of the same frame (R59). -/
theorem keepsSameFrame_exec (i : Instr) : KeepsSameFrame (exec i) := by
  cases i with
  | start b => intro s₁ s₂ t₁ t₂ h h₁ h₂; cases h₁; cases h₂; exact sameFrame_started b h.cfg
  | finish => exact keepsSameFrame_execFinish
  | abort b => exact keepsSameFrame_execAbort b
  | ckclr | ckbyte b => intro s₁ s₂ t₁ t₂ h h₁ h₂; cases h₁; cases h₂; exact { h with }
  | sbegin => exact keepsSameFrame_execSbegin
  | schar b => exact keepsSameFrame_execSchar b
  | send => exact keepsSameFrame_execSend
  | putu8 v | putu16 v | putu32 v | putu64 v | puti8 v | puti16 v | puti32 v | putf32 v | putf64 v =>
    exact keepsSameFrame_put _ v

theorem keepsSameFrame_issue (cs : List Instr) : KeepsSameFrame (issue cs) := by
  induction cs with
  | nil => intro s₁ s₂ t₁ t₂ h h₁ h₂; cases h₁; cases h₂; exact h
  | cons c cs ih => exact (keepsSameFrame_exec c).andThen ih

end Determinism

/-! ### The result length (R61) -/

section ResultLength
variable {s t : State}

/-- In a state that meets R28 only phase DONE has a result length (10_state.md R19). -/
theorem Inv.phase_of_flen (h : Inv s) (hf : s.flen ≠ 0) : s.phase = .DONE := by
  cases hp : s.phase with
  | DONE => rfl
  | IDLE => obtain ⟨-, -, hz, -⟩ := h.idle hp; exact absurd hz hf
  | OPEN => obtain ⟨-, -, -, hz, -⟩ := h.opened hp; exact absurd hz hf
  | STR => obtain ⟨-, -, hz, -⟩ := h.str hp; exact absurd hz hf
  | ERR => exact absurd (h.error_flen hp) hf

theorem illegalCommand_flen (h : illegalCommand s = .next t) : t.flen = s.flen ∨ t.flen = 0 := by
  rcases illegalCommand_cases h with ⟨-, rfl⟩ | ⟨-, rfl⟩
  · exact .inl rfl
  · exact .inr rfl

theorem execAbort_flen {b : Byte} (h : execAbort b s = .next t) : t.flen = s.flen ∨ t.flen = 0 := by
  rcases execAbort_cases h with ⟨e, -, rfl⟩ | ⟨-, ⟨-, rfl⟩ | ⟨-, rfl⟩⟩ <;> simp

theorem put_flen {w k : Nat} {v : BitVec k} (h : put w v s = .next t) : t.flen = s.flen ∨ t.flen = 0 := by
  rcases put_cases h with ⟨-, rfl⟩ | ⟨-, -, -, rfl⟩ | ⟨-, -, rfl⟩ | ⟨-, -, rfl⟩ <;> simp

theorem execSbegin_flen (h : execSbegin s = .next t) : t.flen = s.flen ∨ t.flen = 0 := by
  rcases execSbegin_cases h with ⟨-, rfl⟩ | ⟨-, -, rfl⟩ | ⟨-, -, rfl⟩ | ⟨-, -, rfl⟩ <;> simp

theorem execSchar_flen {b : Byte} (h : execSchar b s = .next t) : t.flen = s.flen ∨ t.flen = 0 := by
  rcases execSchar_cases h with ⟨-, rfl⟩ | ⟨-, -, -, -, rfl⟩ | ⟨-, -, rfl⟩ | ⟨-, -, rfl⟩ <;> simp

theorem execSend_flen (h : execSend s = .next t) : t.flen = s.flen ∨ t.flen = 0 := by
  rcases execSend_cases h with ⟨-, rfl⟩ | ⟨-, -, -, rfl⟩ | ⟨-, -, rfl⟩ <;> simp

/-- FINISH that completes publishes the new `wp` (R56). -/
theorem execFinish_flen (h : execFinish s = .next t) :
    (t.flen = s.flen ∨ t.flen = 0) ∨ (t.flen = t.wp ∧ t.phase = .DONE) := by
  rcases execFinish_cases h with ⟨-, rfl⟩ | ⟨-, -, -, bs, -, rfl⟩ | ⟨-, -, rfl⟩ <;> simp

/-- Every command leaves `flen` or clears it, but FINISH, which may publish it (R61). -/
theorem exec_flen {i : Instr} (h : exec i s = .next t) :
    (t.flen = s.flen ∨ t.flen = 0) ∨ (i = .finish ∧ t.flen = t.wp ∧ t.phase = .DONE) := by
  cases i with
  | start b => cases h; exact .inl (.inr rfl)
  | finish => exact (execFinish_flen h).imp_right fun hdone => ⟨rfl, hdone⟩
  | abort b => exact .inl (execAbort_flen h)
  | ckclr | ckbyte b => cases h; exact .inl (.inl rfl)
  | sbegin => exact .inl (execSbegin_flen h)
  | schar b => exact .inl (execSchar_flen h)
  | send => exact .inl (execSend_flen h)
  | putu8 v | putu16 v | putu32 v | putu64 v | puti8 v | puti16 v | puti32 v | putf32 v | putf64 v =>
    exact .inl (put_flen h)

end ResultLength

/-! ### Command words (R52) -/

theorem performAll_encode (is : List Instr) (s : State) : performAll (is.map encode) s = issue is s := by
  induction is generalizing s with
  | nil => rfl
  | cons i is ih =>
    have hrest : performAll (is.map encode) = issue is := funext ih
    rw [List.map_cons, performAll, issue, perform_ok s (decode_encode i), hrest]

/-- Presented next, a word is what the next step performs (log entry 8). -/
theorem step_withFetchWord (s : State) (w : Command) : step (s.withFetchWord 72 w.toNat) = perform w s := by
  have hword : tableCommand 72 w.toNat = w := by
    rw [tableCommand, Nat.mod_eq_of_lt w.isLt, BitVec.ofNat_toNat, BitVec.setWidth_eq]
  rw [step_cons (withFetchWord_pending s 72 w.toNat), withFetchWord_rest, hword]

end Sys2Proof.Machine

/-! ### The statements -/

open Sys2Proof Sys2Proof.Machine Sys2Proof.Text

/-- Settles O5: the only writes without a bounds check are SCHAR, SEND and FINISH, for which R28 leaves room, and FINISH
reads only what has been written. -/
theorem stepAlwaysAnswers : Obligations.StepAlwaysAnswers := fun _ hs =>
  ⟨fun w => perform_answers w hs, fun i => exec_answers i hs, step_answers hs⟩

/-- Settles O14, cell by cell: the always legal commands, the legal phase, the blank cells, the ERR column, the illegal
row. -/
theorem phaseTable : Obligations.PhaseTable := by
  refine ⟨fun _ _ _ => alwaysLegal_phase, fun _ _ _ _ => exec_legal, fun _ _ _ => exec_wrong_phase,
    fun _ _ => exec_ignored, fun w s hw => ?illegal⟩
  case illegal =>
    rw [perform_illegal hw s]
    exact ⟨illegalCommand_err, fun he => ⟨_, illegalCommand_raises he, rfl, rfl⟩⟩

/-- Settles O17: the patch, the sum and the append of a FINISH that completes, byte by byte; elsewhere the phase
test. -/
theorem finishEffect : Obligations.FinishEffect := by
  refine ⟨fun d => decode_opcode_append .finish (by simp [Instr.format, Format.bits, BitVec.of_length_zero]),
    fun s hp h6 hw hwritten => ?completes, fun s hp => ?faults, fun s he => execFinish_err he⟩
  case completes =>
    obtain ⟨bs, hsum⟩ := exists_summed hwritten
    have hwp := wp_add_toNat 2 hw
    obtain ⟨hsumA, hsumB⟩ := read_summedBuffer_sums bs s
    refine ⟨_, bs, execFinish_completes hp hw hsum, rfl, hwp, hwp.trans (by omega),
      (read_summedBuffer bs (by omega) (by omega)).trans (read_patchLength_low s),
      (read_summedBuffer bs (by omega) (by omega)).trans (read_patchLength_high s),
      (Memory.readBytes_congr _ _ _ _ fun a _ ha => read_summedBuffer bs (by omega) (by omega)).trans hsum, rfl,
      hsumA, hsumB, fun a h4 h5 h0 h1 => ?_⟩
    exact (read_summedBuffer bs h0 h1).trans (read_patchLength a ⟨h4, h5⟩)
  case faults =>
    exact execFinish_illegal (by rcases hp with h | h | h <;> simp [h]) (by rcases hp with h | h | h <;> simp [h])

/-- Settles O19: the completed frame without a field. -/
theorem emptyPayload : Obligations.EmptyPayload := by
  intro b s
  obtain ⟨t, ht, hp, -, hflen, hbytes, -⟩ := issue_frame b [] s (bufSize_bounds s.cfg).1
  exact ⟨t, ht, hp, BitVec.eq_of_toNat_eq hflen, hbytes.trans (congrArg some (frameOf_nil b))⟩

/-- Settles O20: the fields append their bytes behind START's header, and FINISH completes what stands there. -/
theorem completedFrame : Obligations.CompletedFrame := issue_frame

/-- Settles O21: START makes the two states agree on all a frame depends on, and every command keeps that. -/
theorem frameDeterminism : Obligations.FrameDeterminism := by
  intro b cs s₁ s₂ t₁ t₂ hcfg h₁ h₂
  have h : SameFrame t₁ t₂ := keepsSameFrame_issue cs (sameFrame_started b hcfg) h₁ h₂
  exact ⟨h.phase, h.err, h.flen, h.frameBytes_eq⟩

/-- Settles O43: each command's own effect on `flen`, and R28 in the state it leaves. -/
theorem resultLength : Obligations.ResultLength := by
  intro w s t h
  refine ⟨fun hne => ?changed, fun hs hread => ?done⟩
  case changed =>
    rcases perform_cases h with ⟨i, hd, h⟩ | ⟨-, h⟩
    · rcases exec_flen h with hflen | ⟨rfl, hdone⟩
      · exact .inl (hflen.resolve_left hne)
      · exact .inr ⟨hd, hdone⟩
    · exact .inl ((illegalCommand_flen h).resolve_left hne)
  case done =>
    refine (perform_keeps_inv hs h).phase_of_flen fun hz => hread ?_
    rw [statusRead_flen, hz]
    rfl

/-- Settles O54, by induction on the commands: each is what its encoded word decodes to. -/
theorem issueIsStep : Obligations.IssueIsStep := performAll_encode

/-- Settles O11: a step takes the next word and performs it. -/
theorem stepRunsDecoded : Obligations.StepRunsDecoded :=
  ⟨fun _ _ _ _ hs hd => (step_cons hs).trans (perform_ok _ hd), step_withFetchWord⟩

/-- Settles O16: the six header bytes, and no byte behind them. -/
theorem startEffect : Obligations.StartEffect := by
  refine ⟨fun d => decode_byte_operand .start d rfl rfl, fun b s => ⟨started b s, exec_start b s, rfl, ?_⟩⟩
  have hread : ∀ k, k < 6 → Memory.read (started b s).buf (0 + k) = (header b)[k]? := fun k hk =>
    Memory.read_writeBytes_at _ _ _ _ hk
  exact ⟨hread 0 (by decide), hread 1 (by decide), hread 2 (by decide), hread 3 (by decide), hread 4 (by decide),
    hread 5 (by decide), fun a ha => Memory.read_writeBytes_outside _ _ _ _ (.inr ha)⟩

/-- Settles O18: a reason of the four is its own error code; any other is an illegal command. -/
theorem abortEffect : Obligations.AbortEffect := by
  refine ⟨fun d => decode_byte_operand .abort d rfl rfl, fun b s h1 h4 => ?valid, fun b s hb => ?reserved⟩
  case valid =>
    obtain ⟨e, he, hcode⟩ := hostReason_of_valid h1 h4
    exact ⟨e, hcode, execAbort_valid s he⟩
  case reserved =>
    have h : exec (.abort b) s = illegalCommand s := execAbort_reserved s hb
    rw [h]
    exact ⟨illegalCommand_err, illegalCommand_raises⟩

end

section
/-! PROOFS. The family of 41_checksum.md: `ckstep` and its fold (R62 to R64), the closed form from any starting pair
(R67), and the checksum a host computes by CKCLR and one CKBYTE per byte (R68). -/

namespace Sys2Proof.Machine

/-! ### `ckstep` as arithmetic (R63, R66) -/

@[simp] theorem ckstep_fst_toNat (p : Byte × Byte) (x : Byte) :
    (ckstep p x).1.toNat = (p.1.toNat + x.toNat) % 256 := BitVec.toNat_add ..

@[simp] theorem ckstep_snd_toNat (p : Byte × Byte) (x : Byte) :
    (ckstep p x).2.toNat = (p.2.toNat + (p.1.toNat + x.toNat)) % 256 := by
  rw [ckstep, BitVec.toNat_add, BitVec.toNat_add, Nat.add_mod_mod]

/-! ### The closed form (R67) -/

/-- The weighted sum of R67: byte `i` of `n` counts `n - i` times, once for each sum it is part of. -/
def weightedSum (bs : List Byte) : Nat := (bs.zipIdx.map fun p => (bs.length - p.2) * p.1.toNat).sum

@[simp] theorem weightedSum_nil : weightedSum [] = 0 := rfl

/-- The first byte counts once for every byte; the weights of the others do not see it. -/
@[simp] theorem weightedSum_cons (b : Byte) (bs : List Byte) :
    weightedSum (b :: bs) = (bs.length + 1) * b.toNat + weightedSum bs := by
  rw [weightedSum, List.zipIdx_cons', List.map_cons, List.map_map, List.sum_cons]
  simp [weightedSum, Function.comp_def]

/-- Reductions inside a sum and inside a product change nothing modulo `m`. -/
theorem mod_add_mul_mod_add (c n a w m : Nat) : (c % m + n * (a % m) + w) % m = (c + n * a + w) % m := by
  have hmul : (c % m + n * (a % m)) % m = (c + n * a) % m := by
    rw [Nat.mod_add_mod, ← Nat.add_mod_mod, Nat.mul_mod_mod, Nat.add_mod_mod]
  rw [← Nat.mod_add_mod, hmul, Nat.mod_add_mod]

/-- Checksum A from any starting pair. -/
theorem foldl_ckstep_fst_toNat (bs : List Byte) (p : Byte × Byte) :
    (bs.foldl ckstep p).1.toNat = (p.1.toNat + (bs.map BitVec.toNat).sum) % 256 := by
  induction bs generalizing p with
  | nil => exact (Nat.mod_eq_of_lt p.1.isLt).symm
  | cons b bs ih =>
    rw [List.foldl_cons, ih, ckstep_fst_toNat, Nat.mod_add_mod, List.map_cons, List.sum_cons, Nat.add_assoc]

/-- Checksum B from any starting pair: the starting first sum is added once for every byte. -/
theorem foldl_ckstep_snd_toNat (bs : List Byte) (p : Byte × Byte) :
    (bs.foldl ckstep p).2.toNat = (p.2.toNat + bs.length * p.1.toNat + weightedSum bs) % 256 := by
  induction bs generalizing p with
  | nil => simpa using (Nat.mod_eq_of_lt p.2.isLt).symm
  | cons b bs ih =>
    rw [List.foldl_cons, ih, ckstep_fst_toNat, ckstep_snd_toNat, weightedSum_cons, List.length_cons]
    calc ((p.2.toNat + (p.1.toNat + b.toNat)) % 256 + bs.length * ((p.1.toNat + b.toNat) % 256) + weightedSum bs) % 256
      _ = (p.2.toNat + (p.1.toNat + b.toNat) + bs.length * (p.1.toNat + b.toNat) + weightedSum bs) % 256 :=
        mod_add_mul_mod_add ..
      _ = (p.2.toNat + (bs.length + 1) * p.1.toNat + ((bs.length + 1) * b.toNat + weightedSum bs)) % 256 := by
        simp only [Nat.mul_add, Nat.add_mul, Nat.one_mul]
        congr 1
        omega

/-! ### The commands (R63, R64, R68) -/

section Commands
variable (s : State)

theorem exec_ckclr : exec .ckclr s = .next { s with cka := 0, ckb := 0 } := rfl

theorem exec_ckbyte (b : Byte) :
    exec (.ckbyte b) s = .next { s with cka := (ckstep (s.cka, s.ckb) b).1, ckb := (ckstep (s.cka, s.ckb) b).2 } := rfl

/-- A CKBYTE per byte folds `ckstep` over the bytes, from the sums the state holds. -/
theorem issue_ckbytes (bs : List Byte) : issue (bs.map .ckbyte) s =
    .next { s with cka := (bs.foldl ckstep (s.cka, s.ckb)).1, ckb := (bs.foldl ckstep (s.cka, s.ckb)).2 } := by
  induction bs generalizing s with
  | nil => rfl
  | cons b bs ih => rw [List.map_cons, issue, exec_ckbyte, andThen_next, ih, List.foldl_cons]

/-- CKCLR and a CKBYTE per byte leave the checksum of the bytes, whatever the sums were. -/
theorem issue_ckclr_ckbytes (bs : List Byte) :
    issue (.ckclr :: bs.map .ckbyte) s = .next { s with cka := (ck bs).1, ckb := (ck bs).2 } := by
  rw [issue, exec_ckclr, andThen_next, issue_ckbytes, ck]

end Commands

end Sys2Proof.Machine

/-! ### The statements -/

open Sys2Proof Sys2Proof.Machine

/-- Settles O24: the two sums of the fold, from `(0, 0)`. -/
theorem checksumClosedForm : Obligations.ChecksumClosedForm := by
  intro bs
  have hzero : (0 : Byte).toNat = 0 := rfl
  constructor
  · rw [ck, foldl_ckstep_fst_toNat, hzero, Nat.zero_add]
  · rw [ck, foldl_ckstep_snd_toNat, hzero, Nat.mul_zero, Nat.zero_add, weightedSum]

/-- Settles O25: the sequence completes with the checksum in the two sums, and registers 1 and 2 show them. -/
theorem standaloneChecksum : Obligations.StandaloneChecksum := fun bs s =>
  ⟨_, issue_ckclr_ckbytes s bs, rfl, rfl, rfl⟩

/-- Settles O22: `ckstep` as arithmetic, and CKCLR with its encoding. -/
theorem ckclrEffect : Obligations.CkclrEffect :=
  ⟨fun a c x => ⟨ckstep_fst_toNat (a, c) x, ckstep_snd_toNat (a, c) x⟩, fun _ => rfl,
    fun _ => decode_opcode_append .ckclr (by simp [Instr.format, Format.bits, BitVec.of_length_zero]), exec_ckclr⟩

/-- Settles O23: CKBYTE is one `ckstep` of the two sums. -/
theorem ckbyteEffect : Obligations.CkbyteEffect := by
  refine ⟨fun d => decode_byte_operand .ckbyte d rfl rfl, fun b s => ⟨_, exec_ckbyte s b, rfl, ?sumA, ?sumB⟩⟩
  case sumA => exact ckstep_fst_toNat (s.cka, s.ckb) b
  case sumB => exact BitVec.toNat_add ..

end

section
/-! PROOFS. The family of 42_serializer.md: the nine PUT commands as one `put` (R73, R76 to R84), a field read back
(R74), and a wide PUT as its two halves (R87). -/

namespace Sys2Proof.Text

/-- The encoding of a numeric field's command: its operand is the low bits of the data, whatever stands above
(30_encoding.md R41, R42). -/
theorem decode_emitNum (t : NumType) (d : Data) :
    decode (((emitNum t d).opcode ++ d : BitVec (8 + 64)) : Command) = .ok (emitNum t d) := by
  have hlow : ∀ k ≤ 64, d.setWidth k = ((d.setWidth k).setWidth 64).setWidth k := fun k hk => by
    rw [BitVec.setWidth_setWidth_of_le _ hk, BitVec.setWidth_eq]
  refine decode_opcode_append (emitNum t d) ?_
  cases t with
  | uint8 | int8 => exact hlow 8 (by decide)
  | uint16 | int16 => exact hlow 16 (by decide)
  | uint32 | int32 | float32 => exact hlow 32 (by decide)
  | uint64 | float64 => rfl

end Sys2Proof.Text

namespace Sys2Proof.Machine

/-! ### A PUT on every state (R73) -/

/-- A command that is a `put` puts its operand as a field, byte `k` the operand's digit `k` in base 256 (R73, R74). -/
theorem putsField_of_put {i : Instr} {w k : Nat} {v : BitVec k} (hi : ∀ s, exec i s = put w v s) :
    PutsField i w v.toNat := by
  intro s
  rw [hi]
  refine ⟨fun hp hw => ⟨_, put_completes hp hw, rfl, wp_add_toNat w (by omega), fun j hj => ?byte, fun a ha => ?frame⟩,
    put_overflow, fun hp => ?faults, put_err⟩
  case byte =>
    rw [Memory.read_writeBytes_at _ _ _ _ (by rwa [leBytes_length]), leBytes_getElem? w j v hj, leBytes_byte]
  case frame => exact Memory.read_writeBytes_outside _ _ _ _ (by rwa [leBytes_length])
  case faults =>
    exact put_illegal (by rcases hp with h | h | h <;> simp [h]) (by rcases hp with h | h | h <;> simp [h])

/-- A `put` of an integer's two's-complement pattern puts the integer modulo `2^k` (R80 to R82). -/
theorem putsField_of_put_ofInt {i : Instr} {w k : Nat} {z : Int} (hi : ∀ s, exec i s = put w (BitVec.ofInt k z) s) :
    PutsField i w (z % 2 ^ k).toNat := by
  have hz : (BitVec.ofInt k z).toNat = (z % 2 ^ k).toNat := by simp [BitVec.toNat_ofInt]
  exact hz ▸ putsField_of_put hi

/-! ### A wide PUT and its halves (R87) -/

/-- The bytes of a slice are those of the word, from the slice's first byte on. -/
theorem leBytes_slice (m n : Nat) {k : Nat} (v : BitVec k) :
    leBytes n (v.extractLsb' (8 * m) (8 * n)) = (List.range n).map fun i => v.extractLsb' (8 * (m + i)) 8 := by
  refine List.map_congr_left fun i hi => BitVec.eq_of_getLsbD_eq fun j hj => ?_
  have hin : 8 * i + j < 8 * n := by have := List.mem_range.1 hi; omega
  simp only [BitVec.getLsbD_extractLsb', hj, hin, decide_true, Bool.true_and, Nat.mul_add, Nat.add_assoc]

/-- The low bytes of a word, then the bytes above them. -/
theorem leBytes_add (m n : Nat) {k : Nat} (v : BitVec k) :
    leBytes (m + n) v = leBytes m (v.extractLsb' 0 (8 * m)) ++ leBytes n (v.extractLsb' (8 * m) (8 * n)) := by
  have hlow : leBytes m (v.extractLsb' 0 (8 * m)) = leBytes m v := by simpa [leBytes] using leBytes_slice 0 m v
  rw [hlow, leBytes_slice, leBytes, List.range_add, List.map_append, List.map_map]
  rfl

/-- A PUT that fits is the PUT of its low bytes, then that of the bytes above them (R87). -/
theorem put_add {m n k : Nat} {v : BitVec k} {s : State} (hp : s.phase = .OPEN)
    (hw : s.wp.toNat + (m + n) + 2 ≤ s.cfg.bufSize) :
    put (m + n) v s =
      andThen (put m (v.extractLsb' 0 (8 * m)) s) (put n (v.extractLsb' (8 * m) (8 * n))) := by
  have hwp := wp_add_toNat (s := s) m (by omega)
  rw [put_eq_append hp hw, leBytes_add, append_append, put_eq_append hp (by omega),
    append_eq (by rw [leBytes_length]; omega), andThen_next, andThen_next, leBytes_length]
  refine (put_eq_append ?opened ?fits).symm
  case opened => exact hp
  case fits => simp only [hwp]; omega

theorem issue_pair (i j : Instr) (s : State) : issue [i, j] s = andThen (exec i s) (exec j) := by
  have hj : issue [j] = exec j := funext (issue_singleton j)
  rw [issue, hj]

end Sys2Proof.Machine

/-! ### The statements -/

open Sys2Proof Sys2Proof.Machine Sys2Proof.Text

/-- Settles O27: each unsigned command is the `put` of its width. -/
theorem unsignedPuts : Obligations.UnsignedPuts :=
  ⟨fun d => ⟨decode_emitNum .uint8 d, decode_emitNum .uint16 d, decode_emitNum .uint32 d, decode_emitNum .uint64 d⟩,
    fun _ => putsField_of_put fun _ => rfl, fun _ => putsField_of_put fun _ => rfl,
    fun _ => putsField_of_put fun _ => rfl, fun _ => putsField_of_put fun _ => rfl⟩

/-- Settles O28: each signed command is the `put` of its width, as the unsigned one is. -/
theorem signedPuts : Obligations.SignedPuts :=
  ⟨fun d => ⟨decode_emitNum .int8 d, decode_emitNum .int16 d, decode_emitNum .int32 d⟩,
    fun _ => putsField_of_put fun _ => rfl, fun _ => putsField_of_put fun _ => rfl,
    fun _ => putsField_of_put fun _ => rfl,
    fun _ => ⟨putsField_of_put_ofInt fun _ => rfl, putsField_of_put_ofInt fun _ => rfl,
      putsField_of_put_ofInt fun _ => rfl, fun _ => ⟨rfl, rfl, rfl⟩⟩⟩

/-- Settles O29: each float command is the `put` of its width, as the unsigned one is. -/
theorem floatPuts : Obligations.FloatPuts :=
  ⟨fun d => ⟨decode_emitNum .float32 d, decode_emitNum .float64 d⟩, fun _ => putsField_of_put fun _ => rfl,
    fun _ => putsField_of_put fun _ => rfl, fun _ _ _ => ⟨rfl, rfl⟩⟩

/-- Settles O30: the field is what `MemWrite` writes at `wp`. -/
theorem fieldReadsBack : Obligations.FieldReadsBack := by
  intro T d s hp hw
  exact ⟨_, (exec_emitNum T d s).trans (put_completes hp hw), wp_add_toNat T.width (by omega),
    Memory.memRead_memWrite s.buf s.wp.toNat T.width d⟩

/-- Settles O31: each width is twice the width of its halves. -/
theorem putSplits : Obligations.PutSplits := fun s hp =>
  ⟨fun _ hw => (put_add (m := 1) (n := 1) hp hw).trans (issue_pair (.putu8 _) (.putu8 _) s).symm,
    fun _ hw => (put_add (m := 2) (n := 2) hp hw).trans (issue_pair (.putu16 _) (.putu16 _) s).symm,
    fun _ hw => (put_add (m := 4) (n := 4) hp hw).trans (issue_pair (.putu32 _) (.putu32 _) s).symm⟩

end

section
/-! PROOFS. The family of 43_string_packer.md: `pack32` (R90), SBEGIN, SCHAR and SEND in every phase (R91 to R93), and
the field that a string group appends, checksum commands between its characters included (R94, R97). -/

namespace Sys2Proof

/-- The encoding of a command without an operand: the 64 operand bits are ignored (30_encoding.md R41, R42). -/
theorem decode_no_operand (i : Instr) (hf : i.format = .N) (d : Data) :
    decode ((i.opcode ++ d : BitVec (8 + 64)) : Command) = .ok i :=
  decode_opcode_append i (by rw [hf]; exact Subsingleton.elim (α := BitVec 0) _ _)

end Sys2Proof

namespace Sys2Proof.Machine

/-! ### `pack32` (R90) -/

/-- The string's bytes up to the 32nd, then the pad byte. -/
theorem pack32_getElem? (cs : List Byte) {i : Nat} (hi : i < 32) :
    (pack32 cs)[i]? = if i < min cs.length 32 then cs[i]? else some PAD := by
  have htake : (cs.take STR_LEN).length = min cs.length 32 := by rw [List.length_take, Nat.min_comm]
  by_cases hc : i < min cs.length 32
  · rw [if_pos hc, pack32, List.getElem?_append_left (htake.symm ▸ hc), List.getElem?_take_of_lt hi]
  · rw [if_neg hc, pack32, List.getElem?_append_right (by omega), htake,
      List.getElem?_replicate_of_lt (by simp only [STR_LEN]; omega)]

/-! ### The phases in which a string command is not legal (R91 to R93) -/

section Commands
variable {s : State}

/-- The three blank cells of a command's row, in one (40_frame_control.md R54). -/
theorem exec_blank_cells {i : Instr} {p a b c : Phase} (hi : legalPhase i = some p)
    (hne : ∀ q ∈ [a, b, c], q ≠ p ∧ q ≠ .ERR) (h : s.phase = a ∨ s.phase = b ∨ s.phase = c) :
    exec i s = .next (enterError .sequenceError s) :=
  have ⟨hp, he⟩ := hne s.phase (by simpa using h)
  exec_wrong_phase hi hp he

theorem execSbegin_overflow (hp : s.phase = .OPEN) (hw : s.cfg.bufSize < s.wp.toNat + 32 + 2) :
    execSbegin s = .next (enterError .bufferOverflow s) := by
  rw [execSbegin, inPhase_legal hp (by decide), reserving_overflow hw]

/-- Counting a character below 32 does not wrap (10_state.md R18). -/
theorem scnt_add_one_toNat (h : s.scnt.toNat < 32) : (s.scnt + 1).toNat = s.scnt.toNat + 1 :=
  BitVec.toNat_add_of_lt (y := 1) (show s.scnt.toNat + 1 < 64 by omega)

/-! ### Characters with checksum commands between them (R94, R97) -/

/-- The commands that leave a string field open (R97). -/
def InGroup (c : Instr) : Prop := c = .ckclr ∨ (∃ b, c = .ckbyte b) ∨ ∃ b, c = .schar b

/-- The character that a command supplies. -/
def charOf : Instr → Option Byte
  | .schar b => some b
  | _ => none

/-- What a command of a group makes of the two sums (41_checksum.md R63, R64). -/
def sumsAfter (p : Byte × Byte) : Instr → Byte × Byte
  | .ckclr => (0, 0)
  | .ckbyte b => ckstep p b
  | _ => p

/-- `s` with other sums. -/
def withSums (p : Byte × Byte) (s : State) : State := { s with cka := p.1, ckb := p.2 }

/-- A command of a group adds its character, if it has one, to the open field and is performed on the sums; neither
sees the other. -/
theorem exec_inGroup {c : Instr} (hc : InGroup c) (cs : List Byte) (p : Byte × Byte) (hp : s.phase = .STR)
    (hw : s.wp.toNat + 32 ≤ s.cfg.bufSize) :
    exec c (withChars cs (withSums p s)) =
      .next (withChars (cs ++ (charOf c).toList) (withSums (sumsAfter p c) s)) := by
  rcases hc with rfl | ⟨b, rfl⟩ | ⟨b, rfl⟩
  case inl => rw [show cs ++ (charOf .ckclr).toList = cs from List.append_nil cs]; rfl
  case inr.inl => rw [show cs ++ (charOf (.ckbyte b)).toList = cs from List.append_nil cs]; rfl
  case inr.inr => exact execSchar_withChars (s := withSums p s) cs b hp hw

theorem charsOf_cons (c : Instr) (is : List Instr) :
    (c :: is).filterMap charOf = (charOf c).toList ++ is.filterMap charOf := by
  cases hc : charOf c with
  | none => rw [List.filterMap_cons_none hc, Option.toList_none, List.nil_append]
  | some b => rw [List.filterMap_cons_some hc, Option.toList_some, List.singleton_append]

/-- The commands of a group, as the next ones of the open field. -/
theorem issue_inGroup {is : List Instr} (his : ∀ c ∈ is, InGroup c) (cs : List Byte) (p : Byte × Byte)
    (hp : s.phase = .STR) (hw : s.wp.toNat + 32 ≤ s.cfg.bufSize) :
    issue is (withChars cs (withSums p s)) =
      .next (withChars (cs ++ is.filterMap charOf) (withSums (is.foldl sumsAfter p) s)) := by
  induction is generalizing cs p with
  | nil => rw [List.filterMap_nil, List.append_nil]; rfl
  | cons c is ih =>
    obtain ⟨hc, his⟩ := List.forall_mem_cons.1 his
    rw [issue, exec_inGroup hc cs p hp hw, andThen_next, ih his, List.append_assoc, ← charsOf_cons, List.foldl_cons]

/-- Characters alone leave the sums. -/
theorem sums_of_chars {is : List Instr} (his : ∀ c ∈ is, ∃ b, c = .schar b) (p : Byte × Byte) :
    is.foldl sumsAfter p = p := by
  induction is with
  | nil => rfl
  | cons c is ih =>
    obtain ⟨⟨b, rfl⟩, hchars⟩ := List.forall_mem_cons.1 his
    exact ih hchars

/-- The state that SBEGIN leaves (R91). -/
def fieldOpened (s : State) : State := { s with scnt := 0, phase := .STR }

/-- A string group with checksum commands between its characters appends their `pack32`, beside what those commands
make of the sums (R94). -/
theorem issue_group {is : List Instr} (his : ∀ c ∈ is, InGroup c) (hp : s.phase = .OPEN) (hc : s.scnt = 0)
    (hw : s.wp.toNat + 34 ≤ s.cfg.bufSize) :
    issue (.sbegin :: (is ++ [.send])) s =
      append (pack32 (is.filterMap charOf)) (withSums (is.foldl sumsAfter (s.cka, s.ckb)) s) := by
  have hroom : s.wp.toNat + 32 ≤ s.cfg.bufSize := by omega
  have hbegin : exec .sbegin s = .next (fieldOpened s) := execSbegin_completes hp hw
  have hopen : withChars [] (withSums (s.cka, s.ckb) (fieldOpened s)) = fieldOpened s := withChars_nil rfl
  have hgroup := issue_inGroup (s := fieldOpened s) his [] (s.cka, s.ckb) rfl hroom
  have hsend := execSend_withChars (is.filterMap charOf)
    (s := withSums (is.foldl sumsAfter (s.cka, s.ckb)) (fieldOpened s)) rfl hroom
  rw [hopen, List.nil_append] at hgroup
  rw [issue, hbegin, andThen_next, issue_append, hgroup, andThen_next, issue_singleton]
  refine hsend.trans ?_
  rw [append_eq (by rw [pack32_length]; exact hroom), pack32_length]
  simp only [withSums, fieldOpened, ← hp, ← hc]

end Commands

end Sys2Proof.Machine

/-! ### The statements -/

open Sys2Proof Sys2Proof.Machine

/-- Settles O32: the first 32 bytes of the string, padded. -/
theorem pack32PadsOrTruncates : Obligations.Pack32 := fun cs => ⟨pack32_length cs, fun _ hi => pack32_getElem? cs hi⟩

/-- Settles O33: the bounds check of 32 bytes in OPEN, the phase test elsewhere. -/
theorem sbeginEffect : Obligations.SbeginEffect :=
  ⟨decode_no_operand .sbegin rfl, fun _ => ⟨execSbegin_completes, execSbegin_overflow, exec_blank_cells rfl (by decide),
    exec_ignored rfl⟩⟩

/-- Settles O34: one byte at `wp` below 32 characters, nothing from there on, the phase test elsewhere. -/
theorem scharEffect : Obligations.ScharEffect := by
  refine ⟨fun d => decode_byte_operand .schar d rfl rfl, fun b s => ⟨fun hp hc hw => ?stores, execSchar_drops,
    exec_blank_cells rfl (by decide), exec_ignored rfl⟩⟩
  case stores =>
    exact ⟨_, execSchar_stores hp hc hw, rfl, wp_add_toNat 1 hw, scnt_add_one_toNat hc,
      Memory.read_writeBytes_at [b] s.buf s.wp.toNat 0 Nat.one_pos,
      fun a ha => Memory.read_writeBytes_outside _ _ _ _ (by rw [List.length_singleton]; omega)⟩

/-- Settles O35: the pad bytes that the characters left of the field, the phase test elsewhere. -/
theorem sendEffect : Obligations.SendEffect := by
  refine ⟨decode_no_operand .send rfl, fun s => ⟨fun hp hw => ?pads, exec_blank_cells rfl (by decide),
    exec_ignored rfl⟩⟩
  case pads =>
    refine ⟨_, execSend_completes hp hw, rfl, wp_add_toNat _ hw, fun k hk => ?padding, fun a ha => ?frame⟩
    case padding =>
      rw [Memory.read_writeBytes_at _ _ _ _ (by rwa [List.length_replicate]), List.getElem?_replicate, if_pos hk]
      rfl
    case frame => exact Memory.read_writeBytes_outside _ _ _ _ (by rwa [List.length_replicate])

/-- Settles O36: the group is one append of the padded characters, and only its checksum commands reach the sums. -/
theorem stringFieldLaw : Obligations.StringFieldLaw := by
  intro cs s hp hw hc hcs
  have hlen := pack32_length (cs.filterMap charOf)
  have hfit : s.wp.toNat + (pack32 (cs.filterMap charOf)).length ≤ s.cfg.bufSize := by omega
  refine ⟨_, (issue_group hcs hp hc hw).trans (append_eq hfit), rfl, ?wp, ?field, fun a ha => ?frame,
    fun hall => ?sums⟩
  case wp => exact (wp_add_toNat _ hfit).trans (by rw [hlen])
  case field => exact hlen ▸ Memory.readBytes_writeBytes s.buf s.wp.toNat (pack32 (cs.filterMap charOf))
  case frame => exact Memory.read_writeBytes_outside _ _ _ _ (by rwa [pack32_length])
  case sums =>
    have h := sums_of_chars hall (s.cka, s.ckb)
    exact ⟨congrArg Prod.fst h, congrArg Prod.snd h⟩

end

section
/-! PROOFS. The family of 44_host_command_compiler.md: the tokenizer (R102), the integer literals (R108), the resolver
(R103), and what an encode call does when it fails (R101, R103, R106, R111) and when it gives a frame (R104 to R106,
R112). -/

namespace Sys2Proof.Text

open Sys2Proof.Machine

/-! ### The tokenizer (R102) -/

section Tokens
variable {isSpace : Byte → Bool} {cur : Bytes}

/-- The end of the text closes the run being read, where there is one. -/
theorem mem_splitTokens_nil {tok : Bytes} : tok ∈ splitTokens isSpace cur [] ↔ tok = cur ∧ cur ≠ [] := by
  unfold splitTokens
  split <;> simp_all

theorem flatten_splitTokens_nil : (splitTokens isSpace cur []).flatten = cur := by
  unfold splitTokens
  split <;> simp_all

theorem splitTokens_ended (h : cur ≠ []) : splitTokens isSpace cur [] = [cur] := if_neg h

/-- Whitespace closes the run being read as the end of the text does, and the next run begins empty. -/
theorem splitTokens_space {c : Byte} (hc : isSpace c = true) (cs : Bytes) :
    splitTokens isSpace cur (c :: cs) = splitTokens isSpace cur [] ++ splitTokens isSpace [] cs := by
  simp only [splitTokens, if_pos hc]
  split <;> rfl

theorem splitTokens_char {c : Byte} (hc : isSpace c = false) (cs : Bytes) :
    splitTokens isSpace cur (c :: cs) = splitTokens isSpace (cur ++ [c]) cs := by
  simp [splitTokens, hc]

/-- Every token is a non-empty run of non-whitespace, where the run being read has no whitespace so far. -/
theorem splitTokens_runs (text : Bytes) (hcur : ∀ c ∈ cur, isSpace c = false) :
    ∀ tok ∈ splitTokens isSpace cur text, tok ≠ [] ∧ ∀ c ∈ tok, isSpace c = false := by
  induction text generalizing cur with
  | nil =>
    intro tok h
    obtain ⟨rfl, hne⟩ := mem_splitTokens_nil.1 h
    exact ⟨hne, hcur⟩
  | cons c cs ih =>
    cases hc : isSpace c with
    | true =>
      intro tok h
      rw [splitTokens_space hc] at h
      rcases List.mem_append.1 h with h | h
      · obtain ⟨rfl, hne⟩ := mem_splitTokens_nil.1 h
        exact ⟨hne, hcur⟩
      · exact ih (by simp) tok h
    | false =>
      rw [splitTokens_char hc]
      exact ih (List.forall_mem_append.2 ⟨hcur, by simpa using hc⟩)

/-- The tokens together are the text without its whitespace, in order. -/
theorem flatten_splitTokens (text : Bytes) :
    (splitTokens isSpace cur text).flatten = cur ++ text.filter (fun c => !isSpace c) := by
  induction text generalizing cur with
  | nil => simp [flatten_splitTokens_nil]
  | cons c cs ih =>
    cases hc : isSpace c with
    | true => simp [splitTokens_space hc, flatten_splitTokens_nil, ih, hc]
    | false => simp [splitTokens_char hc, ih, hc]

end Tokens

/-! ### Integer literals (R108) -/

section Literals
variable {env : Env} {ds : List Nat}

theorem upperHexDigit_digitChar : ∀ d < 16, upperHexDigit (digitChar 0x41 d) = some d := by decide

theorem digitRun_decimal (h : Digits64 10 ds) : digitRun 10 decDigit (digitsText 0x41 ds) = some (digitsValue 10 ds) :=
  digitRun_digitsText h.1 fun d hd => decDigit_digitChar d (h.2.1 d hd)

theorem digitRun_upperHex (h : Digits64 16 ds) :
    digitRun 16 upperHexDigit (digitsText 0x41 ds) = some (digitsValue 16 ds) :=
  digitRun_digitsText h.1 fun d hd => upperHexDigit_digitChar d (h.2.1 d hd)

theorem parseInt_of_read {tok : Bytes} {d : Data} (h : env.readInt tok = some d) : parseInt env tok = d := by
  rw [parseInt, h, Option.getD_some]

theorem parseInt_decimal (henv : env.Lawful) (h : Digits64 10 ds) :
    parseInt env (digitsText 0x41 ds) = BitVec.ofNat 64 (digitsValue 10 ds) :=
  parseInt_of_read (henv.decimal _ _ (digitRun_decimal h) h.2.2)

theorem parseInt_negative (henv : env.Lawful) (h : Digits64 10 ds) :
    parseInt env (0x2D :: digitsText 0x41 ds) = BitVec.ofNat 64 (2 ^ 64 - digitsValue 10 ds) :=
  parseInt_of_read (henv.negative _ _ (digitRun_decimal h) h.2.2)

theorem parseInt_hexadecimal (henv : env.Lawful) (h : Digits64 16 ds) :
    parseInt env (0x30 :: 0x78 :: digitsText 0x41 ds) = BitVec.ofNat 64 (digitsValue 16 ds) :=
  parseInt_of_read (henv.hexadecimal _ _ (digitRun_upperHex h) h.2.2)

/-- An integer field is encoded from its token's value alone (R105). -/
theorem emitField_congr_parseInt {T : NumType} (h32 : T ≠ .float32) (h64 : T ≠ .float64) {tok tok' : Bytes}
    (h : parseInt env tok = parseInt env tok') : emitField env (.num T) tok = emitField env (.num T) tok' := by
  cases T with
  | float32 | float64 => contradiction
  | uint8 | uint16 | uint32 | uint64 | int8 | int16 | int32 => simp only [emitField, operandOf, h]

/-! #### Unparsable tokens -/

theorem decDigit_eq_none {c : Byte} (h : c.toNat < 0x30 ∨ 0x39 < c.toNat) : decDigit c = none :=
  if_neg (by omega)

/-- A hexadecimal digit is the character of its value, in one case or the other. -/
theorem hexDigit_eq_some {c : Byte} {d : Nat} (h : hexDigit c = some d) :
    d < 16 ∧ (c = digitChar 0x41 d ∨ c = digitChar 0x61 d) := by
  have hchar : ∀ {n : Nat}, c.toNat = n → c = BitVec.ofNat 8 n := fun h => by
    rw [← h, BitVec.ofNat_toNat, BitVec.setWidth_eq]
  unfold hexDigit upperHexDigit decDigit at h
  unfold digitChar
  split at h
  · cases h
    exact ⟨by omega, .inr (hchar (by rw [if_neg (by omega)]; omega))⟩
  · split at h
    · cases h
      exact ⟨by omega, .inl (hchar (by rw [if_neg (by omega)]; omega))⟩
    · split at h <;> cases h
      exact ⟨by omega, .inl (hchar (by rw [if_pos (by omega)]; omega))⟩

/-- Bytes that begin with no decimal digit begin no number, `0x` or not. -/
theorem digitsStart_eq_false {tok : Bytes} (h : ∀ c ∈ tok.head?, decDigit c = none) : digitsStart tok = false := by
  unfold digitsStart
  split
  · simp [decDigit] at h
  · simp [decDigit] at h
  · cases tok with
    | nil => rfl
    | cons c cs => simp [h c rfl]

theorem digitsStart_hex {c : Byte} (h : hexDigit c = none) (rest : Bytes) :
    digitsStart (0x30 :: 0x78 :: c :: rest) = false := by
  simp [digitsStart, h]

theorem numberStart_unsigned {c : Byte} (hplus : c ≠ 0x2B) (hminus : c ≠ 0x2D) (rest : Bytes) :
    numberStart (c :: rest) = digitsStart (c :: rest) := by
  unfold numberStart
  split
  · rename_i h; cases h; contradiction
  · rename_i h; cases h; contradiction
  · rfl

/-- A token without a decimal digit begins no number, signed or not. -/
theorem numberStart_of_no_digit {tok : Bytes} (h : ∀ c ∈ tok, decDigit c = none) : numberStart tok = false := by
  have hstart : ∀ rest : Bytes, (∀ c ∈ rest, decDigit c = none) → digitsStart rest = false :=
    fun rest h => digitsStart_eq_false fun c hc => h c (List.mem_of_head? hc)
  unfold numberStart
  split
  · exact hstart _ fun c hc => h c (List.mem_cons_of_mem _ hc)
  · exact hstart _ fun c hc => h c (List.mem_cons_of_mem _ hc)
  · exact hstart _ h

end Literals

/-! ### The resolver (R103, R106) -/

section Resolver
variable {env : Env} {text name : Bytes} {args : List Bytes} {S : Schema}

/-- A token with "CFG-" resolves to the entry of the name behind it. -/
theorem resolve_cfg {α : Type} (table : List (Bytes × α)) (name : Bytes) :
    resolve table ([0x43, 0x46, 0x47, 0x2D] ++ name) = lookup table name := rfl

/-- A token without "CFG-", or with a name that no entry has, resolves to nothing. -/
theorem resolve_eq_none {α : Type} {table : List (Bytes × α)} {tok : Bytes}
    (h : (∀ name, tok ≠ [0x43, 0x46, 0x47, 0x2D] ++ name) ∨
      ∃ name, tok = [0x43, 0x46, 0x47, 0x2D] ++ name ∧ ∀ e ∈ table, e.1 ≠ name) : resolve table tok = none := by
  rcases h with h | ⟨name, rfl, h⟩
  · have hprefix : afterCfg tok = none := by
      unfold afterCfg
      split
      · exact absurd rfl (h _)
      · rfl
    rw [resolve, hprefix, Option.bind_none]
  · rw [resolve_cfg, lookup_eq_none h]

theorem compile_some (h : text ≠ []) : compile env (some text) = compileTokens env (tokenize env text) := by
  cases text with
  | nil => contradiction
  | cons c cs => rfl

/-- A text with a token is not empty. -/
theorem compile_of_tokens {cmd : Bytes} (h : tokenize env text = cmd :: args) :
    compile env (some text) = compileTokens env (cmd :: args) := by
  rw [← h, compile_some]
  rintro rfl
  cases h

theorem compileTokens_unresolved {cmd : Bytes} (h : resolve env.schemas cmd = none) :
    compileTokens env (cmd :: args) = .error .unknownCommand := by
  simp only [compileTokens, h]

theorem compileTokens_valset (h : lookup env.schemas VALSET = some S) :
    compileTokens env (([0x43, 0x46, 0x47, 0x2D] ++ VALSET) :: args) = compileValset env S args := by
  simp only [compileTokens, resolve_cfg, h]
  exact if_pos rfl

theorem compileTokens_ordinary (hname : name ≠ VALSET) (h : lookup env.schemas name = some S) :
    compileTokens env (([0x43, 0x46, 0x47, 0x2D] ++ name) :: args) =
      .ok (.start S.messageId :: (emitFields env S.fields args ++ [.finish])) := by
  simp only [compileTokens, resolve_cfg, h]
  exact if_neg fun heq => hname (Option.some.inj heq)

theorem compileValset_argumentCount (h : args.length ≠ 6) :
    compileValset env S args = .error .invalidArgumentCount := by
  unfold compileValset
  split
  · exact absurd rfl h
  · rfl

theorem compileValset_unknownKey {t1 t2 t3 t4 k v : Bytes} (h : resolve env.items k = none) :
    compileValset env S [t1, t2, t3, t4, k, v] = .error .unknownConfigKey := by
  simp only [compileValset, h]

theorem compileValset_starts {is : List Instr} (h : compileValset env S args = .ok is) :
    ∃ id cs, is = .start id :: cs := by
  unfold compileValset at h
  split at h
  · split at h <;> cases h
    exact ⟨_, _, rfl⟩
  · cases h

theorem compileTokens_starts {toks : List Bytes} {is : List Instr} (h : compileTokens env toks = .ok is) :
    ∃ id cs, is = .start id :: cs := by
  unfold compileTokens at h
  split at h
  · cases h
  · split at h
    · cases h
    · split at h
      · exact compileValset_starts h
      · cases h; exact ⟨_, _, rfl⟩

/-- A call that does not fail begins with START (R100). -/
theorem compile_starts {text : Option Bytes} {is : List Instr} (h : compile env text = .ok is) :
    ∃ id cs, is = .start id :: cs := by
  match text with
  | none | some [] => cases h
  | some (c :: cs) => exact compileTokens_starts h

end Resolver

/-! ### The encode call (R100, R111) -/

section Call
variable {env : Env} {text : Option Bytes} {s t : State}

/-- The error code of a kind of failure (R111). -/
def HostError.code : HostError → ErrCode
  | .invalidInput => .invalidInput
  | .unknownCommand => .unknownCommand
  | .unknownConfigKey => .unknownConfigKey
  | .invalidArgumentCount => .invalidArgumentCount

theorem hostReason_reason (k : HostError) : hostReason k.reason = some k.code := by cases k <;> rfl

/-- A failing call is its one ABORT, and answers 0 (R100 FAIL). -/
theorem encodeCall_error {k : HostError} (s : State) (h : compile env text = .error k) :
    encodeCall env text s = .next (0, enterError k.code s) := by
  have habort : exec (.abort k.reason) s = .next (enterError k.code s) := execAbort_valid s (hostReason_reason k)
  simp only [encodeCall, commandsOf, answerOf, h, issue_singleton, habort]

/-- A call that does not fail is its commands, and answers FLEN (R100). -/
theorem encodeCall_ok {is : List Instr} (h : compile env text = .ok is) (hi : issue is s = .next t) :
    encodeCall env text s = .next (statusRead 4 t, t) := by
  simp only [encodeCall, commandsOf, answerOf, h, hi]

/-- All a call can do when it answers. -/
theorem encodeCall_cases {a : BitVec 32} (h : encodeCall env text s = .next (a, t)) :
    (∃ k, compile env text = .error k ∧ a = 0 ∧ t = enterError k.code s) ∨
      ∃ is, compile env text = .ok is ∧ issue is s = .next t ∧ a = statusRead 4 t := by
  cases hc : compile env text with
  | error k => rw [encodeCall_error s hc] at h; cases h; exact .inl ⟨k, rfl, rfl, rfl⟩
  | ok is =>
    simp only [encodeCall, commandsOf, answerOf, hc] at h
    split at h <;> cases h
    exact .inr ⟨is, rfl, ‹_›, rfl⟩

/-- A call whose commands are START, complete fields that fit, FINISH gives the frame of the fields (R104, R107). -/
theorem encodeCall_frame {id : Byte} {fields : List Field} (s : State)
    (h : compile env text = .ok (.start id :: (fields.flatMap Field.commands ++ [.finish])))
    (hw : 8 + (fields.map Field.width).sum ≤ s.cfg.bufSize) :
    ∃ t, encodeCall env text s = .next (BitVec.ofNat 32 (8 + (fields.map Field.width).sum), t) ∧ t.phase = .DONE ∧
      HasFrame t ∧ frameBytes t = some (frameOf id (fields.flatMap Field.bytes)) := by
  obtain ⟨t, ht, hp, -, hflen, hbytes, hframe⟩ := issue_frame id fields s hw
  have hanswer : statusRead 4 t = BitVec.ofNat 32 (8 + (fields.map Field.width).sum) :=
    BitVec.eq_of_toNat_eq (by rw [statusRead_flen, BitVec.toNat_setWidth, hflen, BitVec.toNat_ofNat])
  exact ⟨t, hanswer ▸ encodeCall_ok h ht, hp, hframe, hbytes⟩

end Call

/-! ### Field slots (R104, R105) -/

section Slots
variable (env : Env)

/-- The field that a slot makes of the token that feeds it, or of none (R104). -/
def slotField : FieldType → Option Bytes → Field
  | .num t, some tok => .num t (operandOf env t tok)
  | .num t, none => .num t 0
  | .fixedString32, tok => .string (tok.getD [])

/-- The fields of the slots `Ts`, slot `j` fed by token `j` (R104). -/
def slotFields (Ts : List FieldType) (toks : List Bytes) : List Field :=
  Ts.zipIdx.map fun p => slotField env p.1 toks[p.2]?

theorem slotFields_cons (T : FieldType) (Ts : List FieldType) (toks : List Bytes) :
    slotFields env (T :: Ts) toks = slotField env T toks.head? :: slotFields env Ts toks.tail := by
  simp [slotFields, List.zipIdx_succ, List.head?_eq_getElem?]

theorem slotField_commands_some (T : FieldType) (tok : Bytes) :
    (slotField env T (some tok)).commands = emitField env T tok := by cases T <;> rfl

theorem slotField_commands_none (T : FieldType) : (slotField env T none).commands = emitDefault T := by cases T <;> rfl

theorem slotField_width (T : FieldType) (tok : Option Bytes) : (slotField env T tok).width = T.width := by
  cases T <;> cases tok <;> rfl

theorem emitFields_eq (Ts : List FieldType) (toks : List Bytes) :
    emitFields env Ts toks = (slotFields env Ts toks).flatMap Field.commands := by
  induction Ts generalizing toks with
  | nil => rfl
  | cons T Ts ih =>
    rw [slotFields_cons, List.flatMap_cons, ← ih]
    cases toks with
    | nil => exact congrArg (· ++ _) (slotField_commands_none env T).symm
    | cons tok toks => exact congrArg (· ++ _) (slotField_commands_some env T tok).symm

theorem slotFields_width (Ts : List FieldType) (toks : List Bytes) :
    (slotFields env Ts toks).map Field.width = Ts.map FieldType.width := by
  induction Ts generalizing toks with
  | nil => rfl
  | cons T Ts ih => rw [slotFields_cons, List.map_cons, List.map_cons, slotField_width, ih]

/-- A 32-bit operand in the low bits of `data` has the operand's bytes. -/
theorem leBytes_widened (v : BitVec 32) : leBytes 4 (v.setWidth 64) = leBytes 4 v := by
  have hbits : (v.setWidth 64).setWidth 32 = v := by simp
  rw [← leBytes_setWidth (k := 32) _ (by decide), hbits]

theorem slotField_bytes (T : FieldType) (tok : Option Bytes) : (slotField env T tok).bytes = slotBytes env T tok := by
  cases T with
  | fixedString32 => cases tok <;> rfl
  | num t =>
    cases tok with
    | none => cases t <;> rfl
    | some tok =>
      cases t with
      | float32 => exact leBytes_widened (parseF32 env tok)
      | uint8 | uint16 | uint32 | uint64 | int8 | int16 | int32 | float64 => rfl

theorem slotFields_bytes (Ts : List FieldType) (toks : List Bytes) :
    (slotFields env Ts toks).flatMap Field.bytes = Ts.zipIdx.flatMap fun p => slotBytes env p.1 toks[p.2]? := by
  simp only [slotFields, List.flatMap_map, slotField_bytes]

/-! ### The fields of a VALSET call (R106) -/

/-- The four leading bytes, the key, and the value of the token `v`. -/
def valsetFields (item : ConfigItem) (toks : List Bytes) (v : Bytes) : List Field :=
  slotFields env (List.replicate 4 (.num .uint8)) toks ++
    [.num .uint32 (item.key.setWidth 64), slotField env item.valueType (some v)]

theorem compileValset_fields {S : Schema} {item : ConfigItem} {t1 t2 t3 t4 k v : Bytes}
    (hS : S.fields = List.replicate 4 (.num .uint8)) (hk : resolve env.items k = some item) :
    compileValset env S [t1, t2, t3, t4, k, v] =
      .ok (.start S.messageId :: ((valsetFields env item [t1, t2, t3, t4] v).flatMap Field.commands ++ [.finish])) := by
  have hkey : (Field.num .uint32 (item.key.setWidth 64)).commands = [.putu32 item.key] := by
    simp [Field.commands, emitNum]
  have hprefix : S.fields.take 4 = List.replicate 4 (.num .uint8) := by rw [hS]; rfl
  simp only [compileValset, hk, hprefix, emitFields_eq, valsetFields, List.flatMap_append, List.flatMap_cons,
    List.flatMap_nil, hkey, slotField_commands_some, List.append_assoc, List.cons_append, List.nil_append]

theorem valsetFields_width (item : ConfigItem) (toks : List Bytes) (v : Bytes) :
    ((valsetFields env item toks v).map Field.width).sum = 8 + item.valueType.width := by
  rw [valsetFields, List.map_append, slotFields_width, List.sum_append, List.map_cons, List.map_cons, slotField_width]
  show 4 + (4 + (item.valueType.width + 0)) = _
  omega

theorem leBytes_one (d : Data) : leBytes 1 d = [d.setWidth 8] := by
  rw [← leBytes_setWidth (k := 8) d (by decide)]
  simp [leBytes]

theorem valsetFields_bytes (item : ConfigItem) (t1 t2 t3 t4 v : Bytes) :
    (valsetFields env item [t1, t2, t3, t4] v).flatMap Field.bytes =
      [t1, t2, t3, t4].map (fun tok => (parseInt env tok).setWidth 8) ++ leBytes 4 item.key ++
        (slotField env item.valueType (some v)).bytes := by
  simp [valsetFields, slotFields, slotField, Field.bytes, operandOf, NumType.width, leBytes_one, leBytes_widened]

end Slots

end Sys2Proof.Text

/-! ### The statements -/

open Sys2Proof Sys2Proof.Machine Sys2Proof.Text

/-- Settles O47: the call compiles to the one ABORT of R103. -/
theorem unknownCommand : Obligations.UnknownCommand := by
  intro env text s hne h
  refine encodeCall_error (k := .unknownCommand) s ?_
  rcases h with h | ⟨tok, toks, h, hcfg⟩
  · rw [compile_some hne, h]
    rfl
  · rw [compile_of_tokens h, compileTokens_unresolved (resolve_eq_none hcfg)]

/-- Settles O48: whitespace closes a run as the end of the text does, by induction on the text. -/
theorem tokenizer : Obligations.Tokenizer := by
  intro env text
  refine ⟨splitTokens_runs text (by simp), flatten_splitTokens text, fun pre post hpre hne c hc => ?closed,
    fun _ hpre hne => splitTokens_last hne hpre, fun _ hc post => splitTokens_space hc post, rfl⟩
  case closed => rw [splitTokens_word hpre, List.nil_append, splitTokens_space hc, splitTokens_ended hne,
      List.singleton_append]

/-- Settles O49: the token count is tested first, then the key. -/
theorem valsetFailures : Obligations.ValsetFailures := by
  intro env text toks S s htoks hS
  have hcompile := (compile_of_tokens htoks).trans (compileTokens_valset hS)
  refine ⟨fun hlen => ?count, fun t1 t2 t3 t4 k v hsix hkey => ?key⟩
  case count =>
    exact encodeCall_error (k := .invalidArgumentCount) s (hcompile.trans (compileValset_argumentCount hlen))
  case key =>
    subst hsix
    exact encodeCall_error (k := .unknownConfigKey) s (hcompile.trans (compileValset_unknownKey (resolve_eq_none hkey)))

/-- Settles O50: the call's commands are those of its complete fields, which make the frame of R58. -/
theorem valsetFrame : Obligations.ValsetFrame := by
  intro env text t1 t2 t3 t4 v name S item s hfields hS hitem htoks hw
  have hcompile := (compile_of_tokens htoks).trans (compileTokens_valset hS)
  rw [compileValset_fields env hfields ((resolve_cfg env.items name).trans hitem)] at hcompile
  have hwidth : 8 + ((valsetFields env item [t1, t2, t3, t4] v).map Field.width).sum = 16 + item.valueType.width := by
    rw [valsetFields_width]
    omega
  obtain ⟨t, ht, hp, -, hbytes⟩ := encodeCall_frame s hcompile (by omega)
  refine ⟨t, hwidth ▸ ht, hp, hbytes.trans ?_⟩
  rw [valsetFields_bytes]
  cases item.valueType <;> rfl

/-- Settles O51: each slot is a complete field, whether a token feeds it or none. -/
theorem ordinaryCallLength : Obligations.OrdinaryCallLength := by
  intro env text name toks S s htoks hname hS hw
  have hcompile := (compile_of_tokens htoks).trans (compileTokens_ordinary hname hS)
  rw [emitFields_eq] at hcompile
  have hframe := encodeCall_frame s hcompile (by rw [slotFields_width]; exact hw)
  rwa [slotFields_width, slotFields_bytes] at hframe

/-- Settles O53: a failing call leaves no frame, and one that does not fail begins with START, after which the two runs
agree (R59). -/
theorem callDeterminism : Obligations.CallDeterminism := by
  intro env text s₁ s₂ t₁ t₂ a₁ a₂ hcfg h₁ h₂
  rcases encodeCall_cases h₁ with ⟨k, hk, rfl, rfl⟩ | ⟨is, his, hi₁, rfl⟩
  · rw [encodeCall_error s₂ hk] at h₂
    cases h₂
    exact ⟨rfl, rfl, rfl, rfl⟩
  · rcases encodeCall_cases h₂ with ⟨k, hk, -⟩ | ⟨is', his', hi₂, rfl⟩
    · cases his.symm.trans hk
    · cases his.symm.trans his'
      obtain ⟨id, cs, rfl⟩ := compile_starts his
      have h : SameFrame t₁ t₂ := keepsSameFrame_issue cs (sameFrame_started id hcfg) hi₁ hi₂
      exact ⟨by rw [statusRead_flen, statusRead_flen, h.flen], h.phase, h.err, h.frameBytes_eq⟩

/-- Settles O57: the lawful reader on the digits of a number, and `numberStart` on what begins no number. -/
theorem integerLiterals : Obligations.IntegerLiterals := by
  intro env henv
  refine ⟨fun ds h => ⟨?decimal, ?negative⟩, fun ds h => ?hexadecimal, fun T ds hs hd hh heq h32 h64 => ?alike,
    fun tok h => ?noDigit, fun c rest h => ⟨fun hplus hminus => ?unsigned, ?plus, ?minus⟩, ?prefixAlone,
    fun c rest h => ?noHexDigit⟩
  case decimal => rw [parseInt_decimal henv h, BitVec.toNat_ofNat, Nat.mod_eq_of_lt h.2.2]
  case negative => rw [parseInt_negative henv h, BitVec.toNat_ofNat]
  case hexadecimal => rw [parseInt_hexadecimal henv h, BitVec.toNat_ofNat, Nat.mod_eq_of_lt h.2.2]
  case alike =>
    refine emitField_congr_parseInt h32 h64 ?_
    rw [parseInt_hexadecimal henv hh, parseInt_decimal henv hd, heq]
  case noDigit => exact henv.unparsable _ (numberStart_of_no_digit fun c hc => decDigit_eq_none (h c hc))
  all_goals refine henv.unparsable _ ?_
  case unsigned =>
    rw [numberStart_unsigned hplus hminus]
    exact digitsStart_eq_false (by simpa using decDigit_eq_none h)
  case plus | minus => exact digitsStart_eq_false (by simpa using decDigit_eq_none h)
  case prefixAlone => rfl
  case noHexDigit =>
    refine digitsStart_hex ?_ rest
    cases hc : hexDigit c with
    | none => rfl
    | some d =>
      obtain ⟨hd, hchar⟩ := hexDigit_eq_some hc
      obtain ⟨hupper, hlower⟩ := h d hd
      rcases hchar with rfl | rfl <;> contradiction

/-- Settles O46: the call compiles to the one ABORT of R101. -/
theorem invalidInput : Obligations.InvalidInput := by
  rintro env text s (rfl | rfl) <;> exact encodeCall_error (k := .invalidInput) s rfl

end

section
/-! PROOFS. The family of 60_exceptions.md: the one error transition (R121, R128), the order of the dispatch tests
(R127), phase ERR and what leaves it (R129 to R131), and the host that causes neither IllegalCommand nor SequenceError
(R124, R125). -/

namespace Sys2Proof.Machine

/-! ### Entering ERR (R121, R127, R128) -/

section Entering
variable {s t : State} {i : Instr} {p : Phase}

/-- If `t` is in phase ERR, it comes from `s` by the error transition, or `s` was in ERR with the same error. -/
def EntersByTransition (s t : State) : Prop :=
  t.phase = .ERR → (s.phase = .ERR ∧ t.err = s.err) ∨ t = enterError t.err s

/-- Where phase and error stay, nothing enters ERR. -/
theorem EntersByTransition.of_kept (hp : t.phase = s.phase) (he : t.err = s.err) : EntersByTransition s t :=
  fun h => .inl ⟨hp ▸ h, he⟩

theorem EntersByTransition.of_phase (hp : t.phase ≠ .ERR) : EntersByTransition s t := fun h => absurd h hp

theorem entersByTransition_enterError (e : ErrCode) (s : State) : EntersByTransition s (enterError e s) :=
  fun _ => .inr rfl

theorem illegalCommand_enters (h : illegalCommand s = .next t) : EntersByTransition s t := by
  rcases illegalCommand_cases h with ⟨-, rfl⟩ | ⟨-, rfl⟩
  · exact .of_kept rfl rfl
  · exact entersByTransition_enterError _ s

theorem execAbort_enters {b : Byte} (h : execAbort b s = .next t) : EntersByTransition s t := by
  rcases execAbort_cases h with ⟨e, -, rfl⟩ | ⟨-, ⟨-, rfl⟩ | ⟨-, rfl⟩⟩
  · exact entersByTransition_enterError _ s
  · exact .of_kept rfl rfl
  · exact entersByTransition_enterError _ s

theorem put_enters {w k : Nat} {v : BitVec k} (h : put w v s = .next t) : EntersByTransition s t := by
  rcases put_cases h with ⟨-, rfl⟩ | ⟨-, -, -, rfl⟩ | ⟨-, -, rfl⟩ | ⟨-, -, rfl⟩
  · exact .of_kept rfl rfl
  · exact .of_kept rfl rfl
  · exact entersByTransition_enterError _ s
  · exact entersByTransition_enterError _ s

theorem execSbegin_enters (h : execSbegin s = .next t) : EntersByTransition s t := by
  rcases execSbegin_cases h with ⟨-, rfl⟩ | ⟨-, -, rfl⟩ | ⟨-, -, rfl⟩ | ⟨-, -, rfl⟩
  · exact .of_kept rfl rfl
  · exact .of_phase (by simp)
  · exact entersByTransition_enterError _ s
  · exact entersByTransition_enterError _ s

theorem execSchar_enters {b : Byte} (h : execSchar b s = .next t) : EntersByTransition s t := by
  rcases execSchar_cases h with ⟨-, rfl⟩ | ⟨-, -, -, -, rfl⟩ | ⟨-, -, rfl⟩ | ⟨-, -, rfl⟩
  · exact .of_kept rfl rfl
  · exact .of_kept rfl rfl
  · exact .of_kept rfl rfl
  · exact entersByTransition_enterError _ s

theorem execSend_enters (h : execSend s = .next t) : EntersByTransition s t := by
  rcases execSend_cases h with ⟨-, rfl⟩ | ⟨-, -, -, rfl⟩ | ⟨-, -, rfl⟩
  · exact .of_kept rfl rfl
  · exact .of_phase (by simp)
  · exact entersByTransition_enterError _ s

theorem execFinish_enters (h : execFinish s = .next t) : EntersByTransition s t := by
  rcases execFinish_cases h with ⟨-, rfl⟩ | ⟨-, -, -, bs, -, rfl⟩ | ⟨-, -, rfl⟩
  · exact .of_kept rfl rfl
  · exact .of_phase (by simp)
  · exact entersByTransition_enterError _ s

/-- Every command that enters ERR does so by the error transition (R121). -/
theorem exec_enters (h : exec i s = .next t) : EntersByTransition s t := by
  cases i with
  | start b => cases h; exact .of_phase (by simp)
  | ckclr | ckbyte b => cases h; exact .of_kept rfl rfl
  | abort b => exact execAbort_enters h
  | finish => exact execFinish_enters h
  | sbegin => exact execSbegin_enters h
  | schar b => exact execSchar_enters h
  | send => exact execSend_enters h
  | putu8 v | putu16 v | putu32 v | putu64 v | puti8 v | puti16 v | puti32 v | putf32 v | putf64 v =>
    exact put_enters h

theorem perform_enters {w : Command} (h : perform w s = .next t) : EntersByTransition s t := by
  rcases perform_cases h with ⟨i, -, h⟩ | ⟨-, h⟩
  · exact exec_enters h
  · exact illegalCommand_enters h

/-- A command in its legal phase whose bounds check fails raises BufferOverflow (R125, 40_frame_control.md R53 step 7). -/
theorem exec_overflow (hi : legalPhase i = some p) (hp : s.phase = p) (hroom : 0 < roomNeeded i)
    (hw : s.cfg.bufSize < s.wp.toNat + roomNeeded i + 2) : exec i s = .next (enterError .bufferOverflow s) := by
  cases i with
  | start b | ckclr | ckbyte b | abort b => cases hi
  | finish | schar b | send => cases hroom
  | sbegin => cases hi; exact execSbegin_overflow hp hw
  | putu8 v | putu16 v | putu32 v | putu64 v | puti8 v | puti16 v | puti32 v | putf32 v | putf64 v =>
    cases hi; exact put_overflow hp hw

/-- A word that is not always legal and has no legal phase is dispatched as an illegal command (R53 steps 4 and 5). -/
theorem perform_without_phase {w : Command} (s : State) (hw : ∀ i, decode w = .ok i → alwaysLegal i = false)
    (hphase : ∀ i p, decode w = .ok i → legalPhase i ≠ some p) : perform w s = illegalCommand s := by
  cases hd : decode w with
  | error e => exact perform_error s hd
  | ok i =>
    rcases not_alwaysLegal (hw i hd) with ⟨p, hp⟩ | ⟨b, rfl, -⟩
    · exact absurd hp (hphase i p hd)
    · exact perform_illegal (.inr ⟨b, hd, hw _ hd⟩) s

end Entering

/-! ### In phase ERR (R129 to R131) -/

section InErr
variable {s t : State} {w : Command}

/-- In ERR a word that is not always legal is ignored (R131). -/
theorem perform_ignored (hw : ∀ i, decode w = .ok i → alwaysLegal i = false) (he : s.phase = .ERR) :
    perform w s = .next s := by
  cases hd : decode w with
  | error e => rw [perform_error s hd, illegalCommand_err he]
  | ok i => rw [perform_ok s hd, exec_ignored (hw i hd) he]

/-- All a command can do in ERR: START leaves it, a valid ABORT rewrites the error, every other command leaves all but
the accumulators (R129 to R131). -/
theorem exec_cases_of_err {i : Instr} (he : s.phase = .ERR) (h : exec i s = .next t) :
    (∃ b, i = .start b ∧ t = started b s) ∨ (∃ b e, i = .abort b ∧ hostReason b = some e ∧ t = enterError e s) ∨
      t = { s with cka := t.cka, ckb := t.ckb } := by
  cases i with
  | start b => cases h; exact .inl ⟨b, rfl, rfl⟩
  | ckclr | ckbyte b => cases h; exact .inr (.inr rfl)
  | abort b =>
    rcases execAbort_cases h with ⟨e, hb, rfl⟩ | ⟨-, ⟨-, rfl⟩ | ⟨hne, -⟩⟩
    · exact .inr (.inl ⟨b, e, rfl, hb, rfl⟩)
    · exact .inr (.inr rfl)
    · exact absurd he hne
  | _ => cases (exec_ignored rfl he).symm.trans h; exact .inr (.inr rfl)

/-- All a word can do in ERR. -/
theorem perform_cases_of_err (he : s.phase = .ERR) (h : perform w s = .next t) :
    (∃ b, decode w = .ok (.start b) ∧ t = started b s) ∨
      (∃ b e, decode w = .ok (.abort b) ∧ hostReason b = some e ∧ t = enterError e s) ∨
        t = { s with cka := t.cka, ckb := t.ckb } := by
  rcases perform_cases h with ⟨i, hd, h⟩ | ⟨-, h⟩
  · rcases exec_cases_of_err he h with ⟨b, rfl, ht⟩ | ⟨b, e, rfl, hb, ht⟩ | ht
    · exact .inl ⟨b, hd, ht⟩
    · exact .inr (.inl ⟨b, e, hd, hb, ht⟩)
    · exact .inr (.inr ht)
  · cases (illegalCommand_err he).symm.trans h
    exact .inr (.inr rfl)

/-- The words without START and valid ABORT: those that leave an error as it is (R129). -/
def KeepsError (w : Command) : Prop :=
  (∃ e, decode w = .error e) ∨
    ∃ i, decode w = .ok i ∧ (alwaysLegal i = false ∨ i = .ckclr ∨ ∃ b, i = .ckbyte b)

/-- In ERR such a word completes and leaves all but the accumulators. -/
theorem KeepsError.perform (hw : KeepsError w) (he : s.phase = .ERR) :
    ∃ a b, perform w s = .next { s with cka := a, ckb := b } := by
  rcases hw with ⟨e, hd⟩ | ⟨i, hd, hi | rfl | ⟨b, rfl⟩⟩
  · exact ⟨s.cka, s.ckb, (perform_error s hd).trans (illegalCommand_err he)⟩
  · exact ⟨s.cka, s.ckb, (perform_ok s hd).trans (exec_ignored hi he)⟩
  · exact ⟨_, _, (perform_ok s hd).trans (exec_ckclr s)⟩
  · exact ⟨_, _, (perform_ok s hd).trans (exec_ckbyte s b)⟩

/-- However many such words follow (R107, R129). -/
theorem performAll_keepsError {ws : List Command} (hws : ∀ w ∈ ws, KeepsError w) (he : s.phase = .ERR) :
    ∃ a b, performAll ws s = .next { s with cka := a, ckb := b } := by
  induction ws generalizing s with
  | nil => exact ⟨s.cka, s.ckb, rfl⟩
  | cons w ws ih =>
    obtain ⟨hw, hws⟩ := List.forall_mem_cons.1 hws
    obtain ⟨a, b, hfirst⟩ := hw.perform he
    obtain ⟨a', b', hrest⟩ := ih hws (s := { s with cka := a, ckb := b }) he
    exact ⟨a', b', by rw [performAll, hfirst, andThen_next, hrest]⟩

end InErr

/-! ### Commands in their legal phases (R124, R125) -/

/-- From phase `p` on, each command comes in its legal phase if none overflows, and the last one leaves phase `q`. -/
inductive LegalRun : Phase → List Instr → Phase → Prop where
  | nil (p : Phase) : LegalRun p [] p
  | cons {p q : Phase} {i : Instr} {is : List Instr} (hi : legalPhase i = some p)
      (hrest : LegalRun (phaseAfter i p) is q) : LegalRun p (i :: is) q

/-- What a run of commands in their legal phases keeps: the block is in the phase the run expects, without an error, or
a bounds check failed. -/
structure OnCourse (p : Phase) (s : State) : Prop where
  inv : Inv s
  course : (s.phase = p ∧ s.err = .noError) ∨ (s.phase = .ERR ∧ s.err = .bufferOverflow)

section Runs
variable {p q r : Phase} {is js : List Instr} {s : State}

theorem LegalRun.append (h : LegalRun p is q) (h' : LegalRun q js r) : LegalRun p (is ++ js) r := by
  induction h with
  | nil => exact h'
  | cons hi _ ih => exact .cons hi (ih h')

theorem not_alwaysLegal_of_legalPhase {i : Instr} (h : legalPhase i = some p) : alwaysLegal i = false := by
  cases i with
  | start b | ckclr | ckbyte b | abort b => cases h
  | _ => rfl

/-- A command in its legal phase raises neither IllegalCommand nor SequenceError, and after an overflow it is ignored. -/
theorem exec_onCourse {i : Instr} (hi : legalPhase i = some p) (hs : OnCourse p s) :
    ∃ t, exec i s = .next t ∧ OnCourse (phaseAfter i p) t := by
  obtain ⟨t, ht⟩ := exec_answers i hs.inv
  refine ⟨t, ht, exec_keeps_inv hs.inv ht, ?_⟩
  rcases hs.course with ⟨hp, hnone⟩ | herr
  · rcases exec_legal hi hp ht with ⟨hphase, herr⟩ | ⟨-, herr, hphase⟩
    · exact .inl ⟨hphase, herr.trans hnone⟩
    · exact .inr ⟨hphase, herr⟩
  · cases (exec_ignored (not_alwaysLegal_of_legalPhase hi) herr.1).symm.trans ht
    exact .inr herr

theorem issue_onCourse (h : LegalRun p is q) (hs : OnCourse p s) : ∃ t, issue is s = .next t ∧ OnCourse q t := by
  induction h generalizing s with
  | nil => exact ⟨s, rfl, hs⟩
  | cons hi _ ih =>
    obtain ⟨u, hu, hcourse⟩ := exec_onCourse hi hs
    obtain ⟨t, ht, hend⟩ := ih hcourse
    exact ⟨t, by rw [issue, hu, andThen_next, ht], hend⟩

/-- START begins a run, whatever the state before it (40_frame_control.md R55). -/
theorem onCourse_started (id : Byte) (hs : Inv s) : OnCourse .OPEN (started id s) where
  inv := exec_keeps_inv hs (exec_start id s)
  course := .inl ⟨rfl, rfl⟩

end Runs

end Sys2Proof.Machine

namespace Sys2Proof.Text

open Sys2Proof.Machine

/-! ### The commands of an encode call (R100) -/

section Call
variable {env : Env} {is : List Instr}

theorem emitNum_legalRun (t : NumType) (d : Data) : LegalRun .OPEN [emitNum t d] .OPEN := by
  cases t <;> exact .cons rfl (.nil _)

theorem chars_legalRun (cs : Bytes) : LegalRun .STR (cs.map .schar) .STR := by
  induction cs with
  | nil => exact .nil _
  | cons c cs ih => exact .cons rfl ih

theorem emitString_legalRun (cs : Bytes) : LegalRun .OPEN (emitString cs) .OPEN :=
  .cons rfl ((chars_legalRun cs).append (.cons rfl (.nil _)))

theorem fields_legalRun (fields : List Field) : LegalRun .OPEN (fields.flatMap Field.commands) .OPEN := by
  induction fields with
  | nil => exact .nil _
  | cons f fs ih =>
    rw [List.flatMap_cons]
    cases f with
    | num t d => exact (emitNum_legalRun t d).append ih
    | string cs => exact (emitString_legalRun cs).append ih

/-- The commands are START, complete fields, FINISH. -/
def IsFrameRun (is : List Instr) : Prop :=
  ∃ (id : Byte) (fields : List Field), is = .start id :: (fields.flatMap Field.commands ++ [.finish])

theorem compileValset_isFrameRun {S : Schema} {args : List Bytes} (h : compileValset env S args = .ok is) :
    IsFrameRun is := by
  unfold compileValset at h
  split at h
  case h_1 t1 t2 t3 t4 k v =>
    split at h <;> cases h
    case h_2 item _ =>
      refine ⟨S.messageId, slotFields env (S.fields.take 4) [t1, t2, t3, t4] ++
        [.num .uint32 (item.key.setWidth 64), slotField env item.valueType (some v)], ?_⟩
      have hkey : (Field.num .uint32 (item.key.setWidth 64)).commands = [.putu32 item.key] := by
        simp [Field.commands, emitNum]
      simp [emitFields_eq, hkey, slotField_commands_some]
  case h_2 => cases h

theorem compileTokens_isFrameRun {toks : List Bytes} (h : compileTokens env toks = .ok is) : IsFrameRun is := by
  unfold compileTokens at h
  split at h
  case h_1 => cases h
  case h_2 cmd args =>
    split at h
    case h_1 => cases h
    case h_2 S _ =>
      split at h
      · exact compileValset_isFrameRun h
      · cases h
        exact ⟨S.messageId, slotFields env S.fields args, by rw [emitFields_eq]⟩

/-- A call that does not fail issues START, complete fields, FINISH (R100). -/
theorem compile_isFrameRun {text : Option Bytes} (h : compile env text = .ok is) : IsFrameRun is := by
  match text with
  | none | some [] => cases h
  | some (c :: cs) => exact compileTokens_isFrameRun h

/-- Such commands complete from every state that meets R28, in DONE, or in ERR by an overflow. -/
theorem IsFrameRun.issue_onCourse {s : State} (h : IsFrameRun is) (hs : Inv s) :
    ∃ t, issue is s = .next t ∧ OnCourse .DONE t := by
  obtain ⟨id, fields, rfl⟩ := h
  rw [issue_start]
  exact Machine.issue_onCourse ((fields_legalRun fields).append (.cons rfl (.nil _))) (onCourse_started id hs)

end Call

end Sys2Proof.Text

/-! ### The statements -/

open Sys2Proof Sys2Proof.Machine Sys2Proof.Text

/-- Settles O52: a failing call is one valid ABORT; the commands of any other come each in its legal phase, so that the
only error left is BufferOverflow. -/
theorem wellBehavedHost : Obligations.WellBehavedHost := by
  intro env text s hs
  cases hc : compile env text with
  | error k =>
    obtain ⟨-, -, hsome, hillegal, hsequence, -⟩ := hostReason_some (hostReason_reason k)
    exact ⟨0, _, encodeCall_error s hc, hs.enterError hsome, rfl, hillegal, hsequence, .inr rfl⟩
  | ok is =>
    obtain ⟨t, ht, hinv, hcourse⟩ := (compile_isFrameRun hc).issue_onCourse hs
    refine ⟨_, t, encodeCall_ok hc ht, hinv, rfl, ?_⟩
    rcases hcourse with ⟨hp, herr⟩ | ⟨hp, herr⟩ <;> simp [hp, herr]

/-- Settles O15: each dispatch test in turn, with those after it left open. -/
theorem faultPriority : Obligations.FaultPriority := by
  intro w s hw
  refine ⟨perform_ignored hw, fun he hphase => ?illegal,
    fun i p hd hi he => ⟨fun hp => ?sequence, fun hp hroom hsize => ?overflow⟩⟩
  case illegal => exact (perform_without_phase s hw hphase).trans (illegalCommand_raises he)
  case sequence => exact (perform_ok s hd).trans (exec_wrong_phase hi hp he)
  case overflow => exact (perform_ok s hd).trans (exec_overflow hi hp hroom hsize)

/-- Settles O37: every command enters ERR by the one error transition. -/
theorem errorTransition : Obligations.ErrorTransition := by
  intro w s t h hp hnew
  refine (perform_enters h hp).resolve_left ?_
  rintro ⟨hs, herr⟩
  exact hnew.elim (· hs) (· herr)

/-- Settles O38: in ERR only START and a valid ABORT write `err`. -/
theorem noNesting : Obligations.NoNesting := by
  intro w s he
  refine ⟨fun hw => perform_ignored (fun i hd => ?notLegal) he, fun t h hne => ?rewritten⟩
  case notLegal =>
    rcases hw with ⟨e, he⟩ | ⟨j, hj, hlegal⟩
    · cases hd.symm.trans he
    · cases hd.symm.trans hj
      exact hlegal
  case rewritten =>
    rcases perform_cases_of_err he h with ⟨b, hd, -⟩ | ⟨b, e, hd, hb, -⟩ | ht
    · exact .inl ⟨b, hd⟩
    · obtain ⟨h1, h4, -⟩ := hostReason_some hb
      exact .inr ⟨b, hd, h1, h4⟩
    · exact absurd (congrArg State.err ht) hne

/-- Settles O41, by induction on the words. -/
theorem errorIsSticky : Obligations.ErrorIsSticky := by
  intro ws s he hws
  obtain ⟨a, b, h⟩ := performAll_keepsError hws he
  exact ⟨_, h, rfl⟩

/-- Settles O39: of all a command can do in ERR, only START writes another phase. -/
theorem leavingError : Obligations.LeavingError := by
  intro w s t he h hp
  rcases perform_cases_of_err he h with ⟨b, hd, rfl⟩ | ⟨b, e, -, -, rfl⟩ | ht
  · exact ⟨b, hd, rfl, rfl, rfl⟩
  · exact absurd rfl hp
  · exact absurd ((congrArg State.phase ht).trans he) hp

end

section
/-! PROOFS. The family of 70_reset_and_hazards.md: what leads into phase IDLE (R141), the effect of reset (R29, R140),
and the block that waits for the host (R141). -/

namespace Sys2Proof.Machine

/-! ### The phase after a command (R54) -/

section Phases
variable {s t : State} {i : Instr} {p : Phase}

/-- An illegal command ends in ERR, whether it is ignored there or raises the error. -/
theorem illegalCommand_phase (h : illegalCommand s = .next t) : t.phase = .ERR := by
  rcases illegalCommand_cases h with ⟨he, rfl⟩ | ⟨-, rfl⟩
  · exact he
  · exact enterError_phase _ s

/-- A command with a legal phase ends in the phase the table names, or in ERR: ignored there, out of its phase, or out
of room. -/
theorem exec_phase_of_legalPhase (hi : legalPhase i = some p) (h : exec i s = .next t) :
    t.phase = phaseAfter i s.phase ∨ t.phase = .ERR := by
  by_cases he : s.phase = .ERR
  · cases (exec_ignored (not_alwaysLegal_of_legalPhase hi) he).symm.trans h
    exact .inr he
  · by_cases hp : s.phase = p
    · subst hp
      exact (exec_legal hi rfl h).imp And.left fun ⟨_, _, hphase⟩ => hphase
    · cases (exec_wrong_phase hi hp he).symm.trans h
      exact .inr rfl

/-- Every command ends in the phase the table names, or in ERR. -/
theorem exec_phase (h : exec i s = .next t) : t.phase = phaseAfter i s.phase ∨ t.phase = .ERR := by
  cases hi : alwaysLegal i with
  | true => exact .inl (alwaysLegal_phase hi h)
  | false =>
    rcases not_alwaysLegal hi with ⟨p, hp⟩ | ⟨b, rfl, hb⟩
    · exact exec_phase_of_legalPhase hp h
    · exact .inr (illegalCommand_phase ((execAbort_reserved s hb).symm.trans h))

/-- The table has IDLE only where the phase stays: in the rows of CKCLR and CKBYTE. -/
theorem phaseAfter_eq_idle (h : phaseAfter i p = .IDLE) : p = .IDLE ∧ (i = .ckclr ∨ ∃ b, i = .ckbyte b) := by
  cases i with
  | ckclr => exact ⟨h, .inl rfl⟩
  | ckbyte b => exact ⟨h, .inr ⟨b, rfl⟩⟩
  | _ => cases h

end Phases

/-! ### Reset (R29, R140) -/

section Reset
variable {s : State}

theorem serve_reset (s : State) : serve .reset s = .next (.nothing, resetBlock s) := rfl

/-- `rst` wins over a command of the same cycle, and the reads of the cycle show the state after the reset (R140, log
entry 7). -/
theorem clockCycle_rst {p : PinsIn} (h : p.rst = true) :
    clockCycle p s = .next (outputs p (resetBlock s), resetBlock s) := by
  simp [clockCycle, h]

/-- With the default `BUF_SIZE` and nothing pending, `Reset` answers the state after reset (log entries 1, 2). -/
theorem resetBlock_default (hcfg : s.cfg = State.reset.cfg) (hpending : s.pending = []) :
    resetBlock s = State.reset := by
  rw [resetBlock_eq, hcfg, hpending]
  rfl

end Reset

/-! ### Waiting (R141) -/

theorem step_nil {s : State} (h : s.pending = []) : step s = .next s := by
  unfold step
  rw [takeCommand_nil s h]

end Sys2Proof.Machine

/-! ### The statements -/

open Sys2Proof Sys2Proof.Machine

/-- Settles O40: a word ends in ERR or in the phase the table names, which is IDLE for CKCLR and CKBYTE alone. -/
theorem idleOnlyByReset : Obligations.IdleOnlyByReset := by
  intro w s t h hidle
  have hne : t.phase ≠ .ERR := by rw [hidle]; decide
  rcases perform_cases h with ⟨i, hd, h⟩ | ⟨-, h⟩
  · have hafter : phaseAfter i s.phase = .IDLE := ((exec_phase h).resolve_right hne).symm.trans hidle
    obtain ⟨hs, rfl | ⟨b, rfl⟩⟩ := phaseAfter_eq_idle hafter
    · exact ⟨hs, .inl hd⟩
    · exact ⟨hs, .inr ⟨b, hd⟩⟩
  · exact absurd (illegalCommand_phase h) hne

/-- Settles O1: each field of the state after reset, the cycle in which `rst` is 1, and the two defaults. -/
theorem resetEffect : Obligations.ResetEffect := by
  refine ⟨fun s => ⟨resetBlock s, serve_reset s, rfl, rfl, rfl, rfl, rfl, rfl, rfl, Memory.read_nil, rfl, rfl,
    fun _ => clockCycle_rst⟩, by decide, rfl, fun s hcfg hpending => ?_⟩
  rw [serve_reset, resetBlock_default hcfg hpending]

/-- Settles O12: there is no command to take. -/
theorem stepWaits : Obligations.StepWaits := fun _ => step_nil

end
